-- ==== Sys2Proof/Word.lean ====
section
/-! DEFINITION. Word.lean: the word types of the engine (00_scope.md R9, 10_state.md, 30_encoding.md R72). -/

namespace Sys2Proof

/-- A byte: a register V0..VF, the delay timer, a memory cell, an immediate `kk` (R7). -/
abbrev Byte := BitVec 8

/-- A 16-bit word: an instruction, PC, I, a call-stack entry (R7, R70). -/
abbrev Word := BitVec 16

/-- A nibble of an instruction word: a register field `x` or `y`, or `n` (R72). -/
abbrev Nibble := BitVec 4

/-- The 12-bit address field `nnn` of an instruction word (R72). -/
abbrev Addr := BitVec 12

end Sys2Proof
end

