-- ==== Sys2Proof/Machine/Flags.lean ====
section
/-! DEFINITION. Flags.lean: the flag values that instructions leave in VF (R22; 44_alu.md R175 to R179; R223). -/

namespace Sys2Proof.Machine

/-- A flag as the byte that VF holds. -/
def flagByte (b : Bool) : Byte := if b then 0x01#8 else 0x00#8

/-- Carry out of bit 7: the sum exceeds 0xFF (R175). -/
def carryFlag (a b : Byte) : Byte := flagByte (decide (0xFF < a.toNat + b.toNat))

/-- NOT borrow of a - b: a ≥ b (R176, R178). -/
def notBorrowFlag (a b : Byte) : Byte := flagByte (decide (b.toNat ≤ a.toNat))

/-- The bit that a shift right by one moves out: old bit 0 (R177). -/
def shiftRightFlag (a : Byte) : Byte := a &&& 0x01#8

/-- The bit that a shift left by one moves out: old bit 7 (R179). -/
def shiftLeftFlag (a : Byte) : Byte := (a >>> 7) &&& 0x01#8

/-- The collision result of a draw as VF holds it (R224). -/
def collisionFlag (collided : Bool) : Byte := flagByte collided

end Sys2Proof.Machine
end

