-- ==== Sys2Proof/Config.lean ====
section
/-! DEFINITION. Config.lean: the fixed parameters of the block (00_scope.md R7) and its one open parameter (R8). -/

namespace Sys2Proof.Config

/-- `MEM_SIZE` (R7): the bytes of memory, addresses 0x000..0xFFF. -/
@[simp] abbrev memSize : Nat := 4096

/-- `MAX_ROM` (R7, C4): the longest program image that `load` accepts. -/
@[simp] abbrev maxRom : Nat := 3584

/-- `PROG_BASE` (R7, R341): where a program is loaded and the reset value of PC. -/
@[simp] abbrev progBase : Nat := 0x200

/-- `GLYPH_BASE` (R7, R51): the address of the glyph of digit 0. -/
@[simp] abbrev glyphBase : Nat := 0x050

/-- `GLYPH_BYTES` (R7): the bytes of one glyph. -/
@[simp] abbrev glyphBytes : Nat := 5

/-- The free value of the model (R8, R202, D14): `randomByte k` is the byte that the random-byte source gives at
its k-th draw. It has no body, so nothing can be proved of any of its values (log entry 1, DESIGN CHOICE). -/
opaque randomByte : Nat → Byte

end Sys2Proof.Config
end

