-- ==== Sys2Proof/Syntax.lean ====
section
/-! DEFINITION. Syntax.lean: the instructions, one constructor per row of spec/opcode_table.json, in its order.
A constructor keeps EVERY bit of its word outside the row's fixed ones, the bits that are not examined too
(R75, R79, R177): a fault records the whole fetched word (R300), and no bit of an encoding is lost (log entry 7). -/

namespace Sys2Proof

inductive Instr where
  /-- 0xE0 `CLS` (R120); `x` is not examined. -/
  | cls (x : Nibble)
  /-- 0xEE `RET` (R121); `x` is not examined. -/
  | ret (x : Nibble)
  /-- 0nnn with another low byte: a no-op (R122). -/
  | nopFamily0 (nnn : Addr)
  /-- 1nnn `JP nnn` (R123). -/
  | jp (nnn : Addr)
  /-- 2nnn `CALL nnn` (R124). -/
  | call (nnn : Addr)
  /-- 3xkk `SE Vx, kk` (R141). -/
  | seVxKk (x : Nibble) (kk : Byte)
  /-- 4xkk `SNE Vx, kk` (R142). -/
  | sneVxKk (x : Nibble) (kk : Byte)
  /-- 5xy_ `SE Vx, Vy` (R143); `n` is not examined (R79). -/
  | seVxVy (x y n : Nibble)
  /-- 6xkk `LD Vx, kk` (R160). -/
  | ldVxKk (x : Nibble) (kk : Byte)
  /-- 7xkk `ADD Vx, kk` (R161). -/
  | addVxKk (x : Nibble) (kk : Byte)
  /-- 8xy0 `LD Vx, Vy` (R171). -/
  | ldVxVy (x y : Nibble)
  /-- 8xy1 `OR Vx, Vy` (R172). -/
  | orVxVy (x y : Nibble)
  /-- 8xy2 `AND Vx, Vy` (R173). -/
  | andVxVy (x y : Nibble)
  /-- 8xy3 `XOR Vx, Vy` (R174). -/
  | xorVxVy (x y : Nibble)
  /-- 8xy4 `ADD Vx, Vy` (R175). -/
  | addVxVy (x y : Nibble)
  /-- 8xy5 `SUB Vx, Vy` (R176). -/
  | subVxVy (x y : Nibble)
  /-- 8xy6 `SHR Vx` (R177); `y` is encoded but not used. -/
  | shrVx (x y : Nibble)
  /-- 8xy7 `SUBN Vx, Vy` (R178). -/
  | subnVxVy (x y : Nibble)
  /-- 8xyE `SHL Vx` (R179); `y` is encoded but not used. -/
  | shlVx (x y : Nibble)
  /-- 8xyn with another n: a no-op (R180). -/
  | nopFamily8 (x y n : Nibble)
  /-- 9xy_ `SNE Vx, Vy` (R144); `n` is not examined (R79). -/
  | sneVxVy (x y n : Nibble)
  /-- Annn `LD I, nnn` (R200). -/
  | ldINnn (nnn : Addr)
  /-- Bnnn `JP V0, nnn` (R201). -/
  | jpV0Nnn (nnn : Addr)
  /-- Cxkk `RND Vx, kk` (R202). -/
  | rndVxKk (x : Nibble) (kk : Byte)
  /-- Dxyn `DRW Vx, Vy, n` (R224). -/
  | drw (x y n : Nibble)
  /-- Ex9E `SKP Vx` (R241). -/
  | skp (x : Nibble)
  /-- ExA1 `SKNP Vx` (R242). -/
  | sknp (x : Nibble)
  /-- Exkk with another kk: a no-op (R243). -/
  | nopFamilyE (x : Nibble) (kk : Byte)
  /-- Fx07 `LD Vx, DT` (R250). -/
  | ldVxDt (x : Nibble)
  /-- Fx0A `LD Vx, K` (R280). -/
  | ldVxK (x : Nibble)
  /-- Fx15 `LD DT, Vx` (R251). -/
  | ldDtVx (x : Nibble)
  /-- Fx1E `ADD I, Vx` (R252). -/
  | addIVx (x : Nibble)
  /-- Fx29 `LD F, Vx` (R253). -/
  | ldFVx (x : Nibble)
  /-- Fx33 `LD B, Vx` (R254). -/
  | ldBVx (x : Nibble)
  /-- Fx55 `LD [I], Vx` (R255). -/
  | ldMemVx (x : Nibble)
  /-- Fx65 `LD Vx, [I]` (R256). -/
  | ldVxMem (x : Nibble)
  /-- Fxkk with another kk: a no-op (R257). -/
  | nopFamilyF (x : Nibble) (kk : Byte)
deriving DecidableEq, Repr

end Sys2Proof
end

