-- ==== Sys2Proof/WellFormed.lean ====
section
/-! DEFINITION. WellFormed.lean: which terms of `Instr` stand for a word. A no-op constructor stands only for the
words that no specific row of its family takes (R82); every other constructor is well-formed for all operands. -/

namespace Sys2Proof

/-- The low bytes that select an instruction in family 0 (R75). -/
def selectsFamily0 (kk : Byte) : Bool := [0xE0#8, 0xEE#8].contains kk

/-- The low nibbles that select an instruction in family 8 (R76). -/
def selectsFamily8 (n : Nibble) : Bool :=
  [0x0#4, 0x1#4, 0x2#4, 0x3#4, 0x4#4, 0x5#4, 0x6#4, 0x7#4, 0xE#4].contains n

/-- The low bytes that select an instruction in family E (R77). -/
def selectsFamilyE (kk : Byte) : Bool := [0x9E#8, 0xA1#8].contains kk

/-- The low bytes that select an instruction in family F (R78). -/
def selectsFamilyF (kk : Byte) : Bool :=
  [0x07#8, 0x0A#8, 0x15#8, 0x1E#8, 0x29#8, 0x33#8, 0x55#8, 0x65#8].contains kk

/-- The term stands for a word of the instruction set (R75 to R78, R82). -/
def Instr.wellFormed : Instr → Bool
  | .cls _ => true
  | .ret _ => true
  | .nopFamily0 nnn => !selectsFamily0 (nnn.extractLsb' 0 8)
  | .jp _ => true
  | .call _ => true
  | .seVxKk _ _ => true
  | .sneVxKk _ _ => true
  | .seVxVy _ _ _ => true
  | .ldVxKk _ _ => true
  | .addVxKk _ _ => true
  | .ldVxVy _ _ => true
  | .orVxVy _ _ => true
  | .andVxVy _ _ => true
  | .xorVxVy _ _ => true
  | .addVxVy _ _ => true
  | .subVxVy _ _ => true
  | .shrVx _ _ => true
  | .subnVxVy _ _ => true
  | .shlVx _ _ => true
  | .nopFamily8 _ _ n => !selectsFamily8 n
  | .sneVxVy _ _ _ => true
  | .ldINnn _ => true
  | .jpV0Nnn _ => true
  | .rndVxKk _ _ => true
  | .drw _ _ _ => true
  | .skp _ => true
  | .sknp _ => true
  | .nopFamilyE _ kk => !selectsFamilyE kk
  | .ldVxDt _ => true
  | .ldVxK _ => true
  | .ldDtVx _ => true
  | .addIVx _ => true
  | .ldFVx _ => true
  | .ldBVx _ => true
  | .ldMemVx _ => true
  | .ldVxMem _ => true
  | .nopFamilyF _ kk => !selectsFamilyF kk

end Sys2Proof
end

