-- ==== Sys2Proof/Decode.lean ====
section
/-! DEFINITION. Decode.lean: from bytes to an instruction and back (30_encoding.md R70 to R83). -/

namespace Sys2Proof

/-- `op` = w[15:12], the family (R72). -/
def fieldOp (w : Word) : Nibble := w.extractLsb' 12 4
/-- `x` = w[11:8] (R72). -/
def fieldX (w : Word) : Nibble := w.extractLsb' 8 4
/-- `y` = w[7:4] (R72). -/
def fieldY (w : Word) : Nibble := w.extractLsb' 4 4
/-- `n` = w[3:0] (R72). -/
def fieldN (w : Word) : Nibble := w.extractLsb' 0 4
/-- `kk` = w[7:0] (R72). -/
def fieldKk (w : Word) : Byte := w.extractLsb' 0 8
/-- `nnn` = w[11:0] (R72). -/
def fieldNnn (w : Word) : Addr := w.extractLsb' 0 12

/-- Family 0 dispatches on the low byte; the x nibble is not examined (R75, D4). -/
def decodeFamily0 (w : Word) : Instr :=
  if fieldKk w = 0xE0#8 then .cls (fieldX w)
  else if fieldKk w = 0xEE#8 then .ret (fieldX w)
  else .nopFamily0 (fieldNnn w)

/-- Family 8 dispatches on the low nibble (R76). -/
def decodeFamily8 (w : Word) : Instr :=
  if fieldN w = 0x0#4 then .ldVxVy (fieldX w) (fieldY w)
  else if fieldN w = 0x1#4 then .orVxVy (fieldX w) (fieldY w)
  else if fieldN w = 0x2#4 then .andVxVy (fieldX w) (fieldY w)
  else if fieldN w = 0x3#4 then .xorVxVy (fieldX w) (fieldY w)
  else if fieldN w = 0x4#4 then .addVxVy (fieldX w) (fieldY w)
  else if fieldN w = 0x5#4 then .subVxVy (fieldX w) (fieldY w)
  else if fieldN w = 0x6#4 then .shrVx (fieldX w) (fieldY w)
  else if fieldN w = 0x7#4 then .subnVxVy (fieldX w) (fieldY w)
  else if fieldN w = 0xE#4 then .shlVx (fieldX w) (fieldY w)
  else .nopFamily8 (fieldX w) (fieldY w) (fieldN w)

/-- Family E dispatches on the low byte (R77). -/
def decodeFamilyE (w : Word) : Instr :=
  if fieldKk w = 0x9E#8 then .skp (fieldX w)
  else if fieldKk w = 0xA1#8 then .sknp (fieldX w)
  else .nopFamilyE (fieldX w) (fieldKk w)

/-- Family F dispatches on the low byte (R78). -/
def decodeFamilyF (w : Word) : Instr :=
  if fieldKk w = 0x07#8 then .ldVxDt (fieldX w)
  else if fieldKk w = 0x0A#8 then .ldVxK (fieldX w)
  else if fieldKk w = 0x15#8 then .ldDtVx (fieldX w)
  else if fieldKk w = 0x1E#8 then .addIVx (fieldX w)
  else if fieldKk w = 0x29#8 then .ldFVx (fieldX w)
  else if fieldKk w = 0x33#8 then .ldBVx (fieldX w)
  else if fieldKk w = 0x55#8 then .ldMemVx (fieldX w)
  else if fieldKk w = 0x65#8 then .ldVxMem (fieldX w)
  else .nopFamilyF (fieldX w) (fieldKk w)

/-- The two-level dispatch of R74. Every word decodes (R81); the last arm is family 0xF. -/
def decode (w : Word) : Instr :=
  match (fieldOp w).toNat with
  | 0x0 => decodeFamily0 w
  | 0x1 => .jp (fieldNnn w)
  | 0x2 => .call (fieldNnn w)
  | 0x3 => .seVxKk (fieldX w) (fieldKk w)
  | 0x4 => .sneVxKk (fieldX w) (fieldKk w)
  | 0x5 => .seVxVy (fieldX w) (fieldY w) (fieldN w)
  | 0x6 => .ldVxKk (fieldX w) (fieldKk w)
  | 0x7 => .addVxKk (fieldX w) (fieldKk w)
  | 0x8 => decodeFamily8 w
  | 0x9 => .sneVxVy (fieldX w) (fieldY w) (fieldN w)
  | 0xA => .ldINnn (fieldNnn w)
  | 0xB => .jpV0Nnn (fieldNnn w)
  | 0xC => .rndVxKk (fieldX w) (fieldKk w)
  | 0xD => .drw (fieldX w) (fieldY w) (fieldN w)
  | 0xE => decodeFamilyE w
  | _ => decodeFamilyF w

/-- Why bytes are no instruction. R81: no word is illegal, so only a missing byte is refused. -/
inductive DecodeError where
  /-- fewer than the two bytes of an instruction word -/
  | truncated
deriving DecidableEq, Repr

/-- Two bytes as an instruction word, the first in bits 15:8 (R52). -/
def wordOfBytes (hi lo : Byte) : Word := hi ++ lo

/-- The high byte of a word, stored first (R52). -/
def hiByte (w : Word) : Byte := w.extractLsb' 8 8
/-- The low byte of a word, stored second (R52). -/
def loByte (w : Word) : Byte := w.extractLsb' 0 8

/-- The decoder over bytes: one instruction and the bytes that follow it. -/
def decodeBytes : List Byte → Except DecodeError (Instr × List Byte)
  | hi :: lo :: rest => .ok (decode (wordOfBytes hi lo), rest)
  | [_] => .error .truncated
  | [] => .error .truncated

/-- The bytes, as stored, of an instruction that spec/opcode_table.json numbers as `w` over `nbits` bits. -/
def tableWordBytes (nbits w : Nat) : List Byte :=
  [hiByte (BitVec.ofNat 16 (w % 2 ^ nbits)), loByte (BitVec.ofNat 16 (w % 2 ^ nbits))]

/-- The instruction the decoder reads from a word numbered as the opcode table numbers it. -/
def decodeTableWord (nbits w : Nat) : Option Instr :=
  match decodeBytes (tableWordBytes nbits w) with
  | .ok (i, _) => some i
  | .error _ => none

/-- A word of the layout op, x, y, n (R72). -/
def packXYN (op x y n : Nibble) : Word := op ++ x ++ y ++ n
/-- A word of the layout op, x, kk (R72). -/
def packXKk (op x : Nibble) (kk : Byte) : Word := op ++ x ++ kk
/-- A word of the layout op, nnn (R72). -/
def packNnn (op : Nibble) (nnn : Addr) : Word := op ++ nnn

/-- The word of an instruction, from the opcode map (R83). -/
def encode : Instr → Word
  | .cls x => packXKk 0x0#4 x 0xE0#8
  | .ret x => packXKk 0x0#4 x 0xEE#8
  | .nopFamily0 nnn => packNnn 0x0#4 nnn
  | .jp nnn => packNnn 0x1#4 nnn
  | .call nnn => packNnn 0x2#4 nnn
  | .seVxKk x kk => packXKk 0x3#4 x kk
  | .sneVxKk x kk => packXKk 0x4#4 x kk
  | .seVxVy x y n => packXYN 0x5#4 x y n
  | .ldVxKk x kk => packXKk 0x6#4 x kk
  | .addVxKk x kk => packXKk 0x7#4 x kk
  | .ldVxVy x y => packXYN 0x8#4 x y 0x0#4
  | .orVxVy x y => packXYN 0x8#4 x y 0x1#4
  | .andVxVy x y => packXYN 0x8#4 x y 0x2#4
  | .xorVxVy x y => packXYN 0x8#4 x y 0x3#4
  | .addVxVy x y => packXYN 0x8#4 x y 0x4#4
  | .subVxVy x y => packXYN 0x8#4 x y 0x5#4
  | .shrVx x y => packXYN 0x8#4 x y 0x6#4
  | .subnVxVy x y => packXYN 0x8#4 x y 0x7#4
  | .shlVx x y => packXYN 0x8#4 x y 0xE#4
  | .nopFamily8 x y n => packXYN 0x8#4 x y n
  | .sneVxVy x y n => packXYN 0x9#4 x y n
  | .ldINnn nnn => packNnn 0xA#4 nnn
  | .jpV0Nnn nnn => packNnn 0xB#4 nnn
  | .rndVxKk x kk => packXKk 0xC#4 x kk
  | .drw x y n => packXYN 0xD#4 x y n
  | .skp x => packXKk 0xE#4 x 0x9E#8
  | .sknp x => packXKk 0xE#4 x 0xA1#8
  | .nopFamilyE x kk => packXKk 0xE#4 x kk
  | .ldVxDt x => packXKk 0xF#4 x 0x07#8
  | .ldVxK x => packXKk 0xF#4 x 0x0A#8
  | .ldDtVx x => packXKk 0xF#4 x 0x15#8
  | .addIVx x => packXKk 0xF#4 x 0x1E#8
  | .ldFVx x => packXKk 0xF#4 x 0x29#8
  | .ldBVx x => packXKk 0xF#4 x 0x33#8
  | .ldMemVx x => packXKk 0xF#4 x 0x55#8
  | .ldVxMem x => packXKk 0xF#4 x 0x65#8
  | .nopFamilyF x kk => packXKk 0xF#4 x kk

/-- The bytes of an instruction as memory stores them, high byte first (R52). -/
def encodeBytes (i : Instr) : List Byte := [hiByte (encode i), loByte (encode i)]

end Sys2Proof
end

