-- ==== Sys2Proof/Machine/State.lean ====
section
/-! DEFINITION. State.lean: the whole state of the engine (10_state.md R20 to R37) as plain data, its reset value, and
the reasons for which a step stops. -/

namespace Sys2Proof.Machine

/-- MEM (R30): the bytes that differ from the reset contents, by strictly rising address. An address that is not
listed reads as `Memory.resetByte` (Machine/Memory.lean) says. -/
abbrev Memory := List Host.Cell

/-- DISP (R31): pixel (x, y) is cell x + 64*y; true = on. -/
abbrev Display := Vector Bool 2048

/-- The engine's own fatal faults with the info that each records (R300). They are no stop of the model: a cycle
that raises one answers a NEXT state whose STATUS holds it (R301, log entry 4). -/
inductive FatalFault where
  /-- code 1, by `CALL` with a full stack -/
  | stackOverflow (pc : Word) (word : Word)
  /-- code 2, by `RET` with an empty stack -/
  | stackUnderflow (pc : Word) (word : Word)
  /-- code 3, by the fetch of any cycle with PC > 0xFFE -/
  | fetchOutOfRange (pc : Word)
  /-- code 4, by `DRW`, `LD B,Vx`, `LD [I],Vx`, `LD Vx,[I]`; `addr` is the first address above 0xFFF -/
  | memoryOutOfRange (pc : Word) (word : Word) (addr : Nat)
  /-- code 5, by `SKP` and `SKNP` with Vx > 0x0F -/
  | keyIndexOutOfRange (pc : Word) (word : Word) (key : Byte)
  /-- code 6, by the `load` port -/
  | romTooLarge (len : Nat)
deriving DecidableEq, Repr

/-- STATUS (R33). -/
inductive Status where
  | running
  | faulted (f : FatalFault)
deriving DecidableEq, Repr

/-- The state tuple of R20, and the count of random bytes drawn. -/
structure State where
  /-- V0..VF (R21) -/
  v : Vector Byte 16
  /-- the index register I (R26) -/
  i : Word
  /-- the program counter (R23) -/
  pc : Word
  /-- the stack pointer, legal values 0..16 (R27) -/
  sp : Byte
  /-- the call stack (R28) -/
  stack : Vector Word 16
  /-- the delay timer (R29) -/
  dt : Byte
  /-- memory (R30) -/
  mem : Memory
  /-- the display buffer (R31) -/
  disp : Display
  /-- the key flags, true = pressed (R32) -/
  keys : Vector Bool 16
  /-- STATUS (R33) -/
  status : Status
  /-- the MODEL's own field: how many random bytes `RND` has drawn so far (log entry 1, DESIGN CHOICE) -/
  rngDraws : Nat
deriving DecidableEq, Repr

/-- Where the model itself stops. -/
inductive Fault where
  /-- Raised by `RET` alone, with an SP above 16: R27 says SP never leaves 0..16, and there is no such stack entry to
  pop. Safe: no state that a run reaches has such an SP (log entry 5, DESIGN CHOICE). -/
  | stackEntryAbsent (sp : Byte)
deriving DecidableEq, Repr

/-- What the model gives no meaning. -/
inductive Refusal where
  /-- Raised by `exec`'s arm of an instruction that has no meaning yet; no arm uses it now. Safe. -/
  | notModelled (mnemonic : String)
  /-- Raised by the host port on a key event with k > 15, which the spec has a model refuse (R322, D18). Safe. -/
  | keyNumberOutOfRange (k : Nat)
  /-- Raised by the host port on a `load` after the one load, which D19 has a model refuse. Safe. -/
  | secondLoad
  /-- Raised by the host port on a `cycle()` before the load, which S14 has a model refuse. Safe. -/
  | cycleBeforeLoad
deriving DecidableEq, Repr

/-- What one step, or one instruction, answers. -/
abbrev Result := Host.Outcome State Fault Refusal

/-- The state at creation (R37, R340): everything zero, off or released, PC at 0x200, memory as `Memory.resetByte`
gives it (nothing listed), STATUS Running. -/
def State.reset : State where
  v := Vector.replicate 16 0x00#8
  i := 0x0000#16
  pc := BitVec.ofNat 16 Config.progBase
  sp := 0x00#8
  stack := Vector.replicate 16 0x0000#16
  dt := 0x00#8
  mem := []
  disp := Vector.replicate 2048 false
  keys := Vector.replicate 16 false
  status := .running
  rngDraws := 0

end Sys2Proof.Machine
end

