-- ==== Sys2Proof/Machine/Display.lean ====
section
/-! DEFINITION. Display.lean: the display buffer controller's two operations (46_draw.md R220 to R223). -/

namespace Sys2Proof.Machine

/-- The cell of pixel (x mod 64, y mod 32) (R31, R221). -/
def pixelIndex (x y : Nat) : Fin 2048 := ⟨x % 64 + 64 * (y % 32), by omega⟩

/-- The pixel (x mod 64, y mod 32) of a display. -/
def Display.pixel (d : Display) (x y : Nat) : Bool := d.get (pixelIndex x y)

/-- The clear operation (R220). -/
def Display.cleared : Display := Vector.replicate 2048 false

/-- A display being drawn on, and whether a collision has occurred. -/
abbrev Canvas := Display × Bool

/-- One set sprite bit reaches pixel (x, y): an on pixel is a collision, and the pixel is inverted (R221, R223). -/
def Canvas.flip (c : Canvas) (x y : Nat) : Canvas :=
  (c.1.set (pixelIndex x y).val (!c.1.pixel x y) (pixelIndex x y).isLt, c.2 || c.1.pixel x y)

/-- Column `col` of a sprite row at x0: bit 7 - col of the row byte (R222). -/
def Canvas.drawBit (row : Byte) (x0 y : Nat) (c : Canvas) (col : Nat) : Canvas :=
  if row.getLsbD (7 - col) then c.flip (x0 + col) y else c

/-- The eight columns of one sprite row (R221). -/
def Canvas.drawRow (c : Canvas) (row : Byte) (x0 y : Nat) : Canvas :=
  (List.range 8).foldl (Canvas.drawBit row x0 y) c

/-- The rows of a sprite, each one display row further down (R221). -/
def Canvas.drawRows (c : Canvas) (x0 y : Nat) : List Byte → Canvas
  | [] => c
  | row :: rows => Canvas.drawRows (c.drawRow row x0 y) x0 (y + 1) rows

/-- `draw(x0, y0, rows)` (R221): the display afterwards and the collision result (R223). -/
def Display.draw (d : Display) (x0 y0 : Byte) (rows : List Byte) : Canvas :=
  Canvas.drawRows (d, false) x0.toNat y0.toNat rows

end Sys2Proof.Machine
end

