-- ==== Sys2Proof/Machine/Memory.lean ====
section
/-! DEFINITION. Memory.lean: the named operations over memory (20_memory.md R50 to R62). -/

namespace Sys2Proof.Machine

/-- The glyph table (R51), 16 digits of 5 bytes, from address 0x050. -/
def glyphTable : List Byte :=
  [0xF0#8, 0x90#8, 0x90#8, 0x90#8, 0xF0#8] ++ [0x20#8, 0x60#8, 0x20#8, 0x20#8, 0x70#8] ++
  [0xF0#8, 0x10#8, 0xF0#8, 0x80#8, 0xF0#8] ++ [0xF0#8, 0x10#8, 0xF0#8, 0x10#8, 0xF0#8] ++
  [0x90#8, 0x90#8, 0xF0#8, 0x10#8, 0x10#8] ++ [0xF0#8, 0x80#8, 0xF0#8, 0x10#8, 0xF0#8] ++
  [0xF0#8, 0x80#8, 0xF0#8, 0x90#8, 0xF0#8] ++ [0xF0#8, 0x10#8, 0x20#8, 0x40#8, 0x40#8] ++
  [0xF0#8, 0x90#8, 0xF0#8, 0x90#8, 0xF0#8] ++ [0xF0#8, 0x90#8, 0xF0#8, 0x10#8, 0xF0#8] ++
  [0xF0#8, 0x90#8, 0xF0#8, 0x90#8, 0x90#8] ++ [0xE0#8, 0x90#8, 0xE0#8, 0x90#8, 0xE0#8] ++
  [0xF0#8, 0x80#8, 0x80#8, 0x80#8, 0xF0#8] ++ [0xE0#8, 0x90#8, 0x90#8, 0x90#8, 0xE0#8] ++
  [0xF0#8, 0x80#8, 0xF0#8, 0x80#8, 0xF0#8] ++ [0xF0#8, 0x80#8, 0xF0#8, 0x80#8, 0x80#8]

/-- What an address reads as when it is not listed: the reset contents (R37, R51), the glyph table at 0x050..0x09F
and 0x00 elsewhere. No operation of an instruction asks for an address above 0xFFF (log entry 8). -/
def Memory.resetByte (a : Nat) : Byte :=
  if a < Config.glyphBase then 0x00#8 else glyphTable.getD (a - Config.glyphBase) 0x00#8

/-- The canonical form from address `lo` on: addresses strictly rising and inside memory, no byte listed that equals
its reset value. -/
def Memory.wfFrom (lo : Nat) : Memory → Bool
  | [] => true
  | (k, b) :: m => decide (lo ≤ k) && decide (k < Config.memSize) && decide (b ≠ Memory.resetByte k)
      && Memory.wfFrom (k + 1) m

/-- The canonical form of memory. -/
def Memory.wf (m : Memory) : Bool := Memory.wfFrom 0 m

/-- `MemRead(a, 1)` (R11). -/
def Memory.read : Memory → Nat → Byte
  | [], a => Memory.resetByte a
  | (k, b) :: m, a => if a = k then b else Memory.read m a

/-- The byte `b` at `a` in front of `m`, listed only if it differs from the reset contents. -/
def Memory.listCell (a : Nat) (b : Byte) (m : Memory) : Memory :=
  if b = Memory.resetByte a then m else (a, b) :: m

/-- `MemWrite(a, 1, b)` (R11): changes only the addressed byte (R57) and keeps the canonical form. -/
def Memory.write : Memory → Nat → Byte → Memory
  | [], a, b => Memory.listCell a b []
  | (k, c) :: m, a, b =>
      if a < k then Memory.listCell a b ((k, c) :: m)
      else if a = k then Memory.listCell a b m
      else (k, c) :: Memory.write m a b

/-- The `n` bytes from `base`, at increasing addresses (R53). -/
def Memory.readBlock (m : Memory) (base n : Nat) : List Byte :=
  (List.range n).map fun r => m.read (base + r)

/-- The bytes stored from `base`, at increasing addresses in order (R53). -/
def Memory.writeBlock : Memory → Nat → List Byte → Memory
  | m, _, [] => m
  | m, base, b :: bs => Memory.writeBlock (m.write base b) (base + 1) bs

/-- The bounds check of R55: the `n` bytes from `base` all lie in 0x000..0xFFF; a range of no bytes always does. -/
abbrev rangeInMemory (base n : Nat) : Prop := n = 0 ∨ base + n ≤ Config.memSize

/-- The first address above 0xFFF of a range from `base` that leaves memory (R55). -/
def firstAbsent (base : Nat) : Nat := max base Config.memSize

/-- `Fetch16(a)`, big-endian (R52), if both bytes exist (R101). -/
def Memory.fetch16 (m : Memory) (a : Nat) : Option Word :=
  if a + 1 < Config.memSize then some (wordOfBytes (m.read a) (m.read (a + 1))) else none

end Sys2Proof.Machine
end

