-- ==== Sys2Proof/Machine/Ops.lean ====
section
/-! DEFINITION. Ops.lean: the named operations over the state that the meanings share. -/

namespace Sys2Proof.Machine

/-! ### Registers (R21, R10) -/

/-- `V[x]`. -/
def State.getV (s : State) (x : Nibble) : Byte := s.v[x.toNat]'x.isLt

/-- `V[x] <- b`. -/
def State.setV (s : State) (x : Nibble) (b : Byte) : State := { s with v := s.v.set x.toNat b x.isLt }

/-- The flag register VF (R22). -/
abbrev flagReg : Nibble := 0xF#4

/-- The result to V[x] first, the flag to VF second (R170, D7). -/
def State.setResultAndFlag (s : State) (x : Nibble) (result flag : Byte) : State :=
  (s.setV x result).setV flagReg flag

/-! ### Program counter (R23, R102) -/

/-- The advance of the fetch: PC <- a + 2 (R102). -/
def State.advance (s : State) : State := { s with pc := s.pc + 2 }

/-- The address `a` that the executing instruction was fetched from. During the execute step PC holds a + 2 (R13, R23). -/
def State.instrAddr (s : State) : Word := s.pc - 2

/-- The skip mechanism (R140): on match PC <- PC + 2. -/
def State.skipIf (s : State) (cond : Bool) : State := if cond then { s with pc := s.pc + 2 } else s

/-! ### Fault entry (R301) -/

/-- The number of a fault code (R300). -/
def FatalFault.code : FatalFault → Nat
  | .stackOverflow _ _ => 1
  | .stackUnderflow _ _ => 2
  | .fetchOutOfRange _ => 3
  | .memoryOutOfRange _ _ _ => 4
  | .keyIndexOutOfRange _ _ _ => 5
  | .romTooLarge _ => 6

/-- Taking a fault (R301): STATUS <- Faulted(code, info) and nothing else. There is no vector and no handler, and no
return from a fault (R303). -/
def State.enterFault (s : State) (f : FatalFault) : State := { s with status := .faulted f }

/-- `raise` from the execute step (R12, R105): the PC advance is discarded, so PC is `a` again, and the fault is taken
with pc = a. The rules check before their first write, so nothing else has to be discarded. -/
def raise (f : Word → FatalFault) (s : State) : Result :=
  .next ({ s with pc := s.instrAddr }.enterFault (f s.instrAddr))

/-! ### Fetch and timer (R101, R104) -/

/-- The word at PC, if PC ≤ 0xFFE (R101). -/
def State.fetch (s : State) : Option Word := s.mem.fetch16 s.pc.toNat

/-- A byte counted down by one, not below zero (R104). -/
def countDown (b : Byte) : Byte := if b = 0x00#8 then 0x00#8 else b - 1

/-- The timer tick (R104). -/
def State.tick (s : State) : State := { s with dt := countDown s.dt }

/-- The end of a cycle after the execute step: the timer ticks in every cycle that completes (R104), and not in a
cycle that raised a fault (R105). -/
def completeCycle : Result → Result
  | .next t =>
      match t.status with
      | .running => .next t.tick
      | .faulted _ => .next t
  | .fault r => .fault r
  | .refused r => .refused r

/-! ### Call stack (R27, R28) -/

/-- `STACK[SP] <- PC; SP <- SP + 1`, given that there is a free entry (R124). -/
def State.push (s : State) (h : s.sp.toNat < 16) : State :=
  { s with stack := s.stack.set s.sp.toNat s.pc h, sp := s.sp + 1 }

/-- Stack entry `j`, if it exists (R28). -/
def State.stackEntry? (s : State) (j : Nat) : Option Word := s.stack[j]?

/-! ### Data memory through I (R53, R55) -/

/-- The address the byte ranges of the instructions start at. -/
def State.baseAddr (s : State) : Nat := s.i.toNat

/-- The whole range of `n` bytes from I is checked before any effect (R55): `done` if it lies in memory, else
MemoryOutOfRange with the fetched word and the first absent address. -/
def withRange (n : Nat) (word : Word) (s : State) (done : State) : Result :=
  if rangeInMemory s.baseAddr n then .next done
  else raise (fun a => .memoryOutOfRange a word (firstAbsent s.baseAddr)) s

/-- The bytes stored from I on (R53). -/
def State.storeBlock (s : State) (bytes : List Byte) : State :=
  { s with mem := s.mem.writeBlock s.baseAddr bytes }

/-- The `n` bytes from I on (R53). -/
def State.loadBlock (s : State) (n : Nat) : List Byte := s.mem.readBlock s.baseAddr n

/-! ### The random-byte input (R202, R324) -/

/-- The byte that the next `RandomByte()` gives (R12): a free value (log entry 1). -/
def State.randomByte (s : State) : Byte := Config.randomByte s.rngDraws

/-- One byte of the random-byte source is consumed. -/
def State.drawRandom (s : State) : State := { s with rngDraws := s.rngDraws + 1 }

/-! ### Keys (R240) -/

/-- `Pressed(k)`, k a key number 0..15 (R12). -/
def State.pressed (s : State) (k : Fin 16) : Bool := s.keys.get k

/-- The lowest key among 0..14 that is pressed (R280): key 15 is not scanned. -/
def State.firstPressed (s : State) : Option Nat := (s.keys.toList.take 15).findIdx? id

end Sys2Proof.Machine
end

