-- ==== Sys2Proof/Machine/Operands.lean ====
section
/-! DEFINITION. Operands.lean: the operand forms that are more than a register or an immediate. -/

namespace Sys2Proof.Machine

/-- `zext_16(nnn)`, a jump target or index value (R73). -/
def addrOperand (nnn : Addr) : Word := nnn.setWidth 16

/-- `zext_16(b)`: a byte where it meets a wider value (R73). -/
def wideByte (b : Byte) : Word := b.setWidth 16

/-- The target of `JP V0, nnn`: V0 + nnn, not masked to 12 bits (R201). -/
def computedTarget (s : State) (nnn : Addr) : Word := addrOperand nnn + wideByte (s.getV 0x0#4)

/-- The glyph address 0x050 + 5 * b; b is not masked to a digit (R253). -/
def glyphAddr (b : Byte) : Word := BitVec.ofNat 16 (Config.glyphBase + Config.glyphBytes * b.toNat)

/-- The hundreds, tens and units of a byte (R254). -/
def decimalDigits (b : Byte) : List Byte := [b / 100#8, (b / 10#8) % 10#8, b % 10#8]

/-- The registers V0..Vx, as `LD [I],Vx` stores them (R255). -/
def State.regsUpTo (s : State) (x : Nibble) : List Byte := s.v.toList.take (x.toNat + 1)

/-- V0..Vx loaded from the bytes from I on; the other registers as they are (R256). -/
def State.loadRegsUpTo (s : State) (x : Nibble) : State :=
  { s with v := Vector.ofFn fun j : Fin 16 =>
      if j.val ≤ x.toNat then s.mem.read (s.baseAddr + j.val) else s.v.get j }

/-- The key number that a key test names in Vx: KEY has 16 entries, any other number is KeyIndexOutOfRange (R244);
`done` is given the flag of the key. -/
def withKey (x : Nibble) (word : Word) (s : State) (done : Bool → State) : Result :=
  if h : (s.getV x).toNat < 16 then .next (done (s.pressed ⟨(s.getV x).toNat, h⟩))
  else raise (fun a => .keyIndexOutOfRange a word (s.getV x)) s

end Sys2Proof.Machine
end

