-- ==== Sys2Proof/Machine/Alu.lean ====
section
/-! DEFINITION. Alu.lean: the register-register family 8xy_ (44_alu.md R170 to R181). -/

namespace Sys2Proof.Machine

/-- `LD Vx, Vy` (R171). -/
def execLdVxVy (x y : Nibble) (s : State) : Result := .next (s.setV x (s.getV y))

/-- `OR Vx, Vy` (R172): VF is not written as a flag. -/
def execOrVxVy (x y : Nibble) (s : State) : Result := .next (s.setV x (s.getV x ||| s.getV y))

/-- `AND Vx, Vy` (R173). -/
def execAndVxVy (x y : Nibble) (s : State) : Result := .next (s.setV x (s.getV x &&& s.getV y))

/-- `XOR Vx, Vy` (R174). -/
def execXorVxVy (x y : Nibble) (s : State) : Result := .next (s.setV x (s.getV x ^^^ s.getV y))

/-- `ADD Vx, Vy` (R175): VF = carry. -/
def execAddVxVy (x y : Nibble) (s : State) : Result :=
  .next (s.setResultAndFlag x (s.getV x + s.getV y) (carryFlag (s.getV x) (s.getV y)))

/-- `SUB Vx, Vy` (R176): VF = NOT borrow of Vx - Vy. -/
def execSubVxVy (x y : Nibble) (s : State) : Result :=
  .next (s.setResultAndFlag x (s.getV x - s.getV y) (notBorrowFlag (s.getV x) (s.getV y)))

/-- `SHR Vx` (R177, D6): Vx in place, Vy not used; VF = the bit shifted out. -/
def execShrVx (x _y : Nibble) (s : State) : Result :=
  .next (s.setResultAndFlag x (s.getV x >>> 1) (shiftRightFlag (s.getV x)))

/-- `SUBN Vx, Vy` (R178): VF = NOT borrow of Vy - Vx. -/
def execSubnVxVy (x y : Nibble) (s : State) : Result :=
  .next (s.setResultAndFlag x (s.getV y - s.getV x) (notBorrowFlag (s.getV y) (s.getV x)))

/-- `SHL Vx` (R179, D6): Vx in place, Vy not used; VF = the bit shifted out. -/
def execShlVx (x _y : Nibble) (s : State) : Result :=
  .next (s.setResultAndFlag x (s.getV x <<< 1) (shiftLeftFlag (s.getV x)))

/-- A family-8 no-op (R180). -/
def execNopFamily8 (_x _y _n : Nibble) (s : State) : Result := .next s

end Sys2Proof.Machine
end

