-- ==== Sys2Proof/Machine/Draw.lean ====
section
/-! DEFINITION. Draw.lean: `DRW` (46_draw.md R224). -/

namespace Sys2Proof.Machine

/-- The canvas that a `DRW Vx, Vy, n` leaves: the n bytes from I drawn at (Vx, Vy). -/
def State.drawSprite (s : State) (x y n : Nibble) : Canvas :=
  s.disp.draw (s.getV x) (s.getV y) (s.loadBlock n.toNat)

/-- `DRW Vx, Vy, n` (R224): VF = the collision result, always written; n = 0 draws and reads nothing (D9). -/
def execDrw (x y n : Nibble) (s : State) : Result :=
  withRange n.toNat (encode (.drw x y n)) s
    ({ s with disp := (s.drawSprite x y n).1 }.setV flagReg (collisionFlag (s.drawSprite x y n).2))

end Sys2Proof.Machine
end

