-- ==== Sys2Proof/Machine/Flow.lean ====
section
/-! DEFINITION. Flow.lean: family 0, jumps and calls (41_flow.md R120 to R124). -/

namespace Sys2Proof.Machine

/-- `CLS` (R120): every pixel off. -/
def execCls (_x : Nibble) (s : State) : Result := .next { s with disp := Display.cleared }

/-- `RET` (R121). The entry popped is not cleared. An SP above 16 is none that R27 allows: there is no entry to pop
(log entry 5). -/
def execRet (x : Nibble) (s : State) : Result :=
  if s.sp = 0x00#8 then raise (fun a => .stackUnderflow a (encode (.ret x))) s
  else match s.stackEntry? (s.sp.toNat - 1) with
    | some target => .next { s with sp := s.sp - 1, pc := target }
    | none => .fault (.stackEntryAbsent s.sp)

/-- A family-0 no-op (R122). -/
def execNopFamily0 (_nnn : Addr) (s : State) : Result := .next s

/-- `JP nnn` (R123). -/
def execJp (nnn : Addr) (s : State) : Result := .next { s with pc := addrOperand nnn }

/-- `CALL nnn` (R124): pushes the address after the `CALL`. -/
def execCall (nnn : Addr) (s : State) : Result :=
  if h : s.sp.toNat < 16 then .next { s.push h with pc := addrOperand nnn }
  else raise (fun a => .stackOverflow a (encode (.call nnn))) s

end Sys2Proof.Machine
end

