-- ==== Sys2Proof/Machine/FxMisc.lean ====
section
/-! DEFINITION. FxMisc.lean: the timer and miscellaneous family Fx__ but for the key wait (48_fx_misc.md R250 to R257). -/

namespace Sys2Proof.Machine

/-- `LD Vx, DT` (R250): DT before the tick of this cycle. -/
def execLdVxDt (x : Nibble) (s : State) : Result := .next (s.setV x s.dt)

/-- `LD DT, Vx` (R251): the tick of this cycle follows. -/
def execLdDtVx (x : Nibble) (s : State) : Result := .next { s with dt := s.getV x }

/-- `ADD I, Vx` (R252): wraps at 16 bits, no flag. -/
def execAddIVx (x : Nibble) (s : State) : Result := .next { s with i := s.i + wideByte (s.getV x) }

/-- `LD F, Vx` (R253): no memory access. -/
def execLdFVx (x : Nibble) (s : State) : Result := .next { s with i := glyphAddr (s.getV x) }

/-- `LD B, Vx` (R254). -/
def execLdBVx (x : Nibble) (s : State) : Result :=
  withRange 3 (encode (.ldBVx x)) s (s.storeBlock (decimalDigits (s.getV x)))

/-- `LD [I], Vx` (R255): I is not changed (D8). -/
def execLdMemVx (x : Nibble) (s : State) : Result :=
  withRange (x.toNat + 1) (encode (.ldMemVx x)) s (s.storeBlock (s.regsUpTo x))

/-- `LD Vx, [I]` (R256): I is not changed (D8). -/
def execLdVxMem (x : Nibble) (s : State) : Result :=
  withRange (x.toNat + 1) (encode (.ldVxMem x)) s (s.loadRegsUpTo x)

/-- A family-F no-op (R257). -/
def execNopFamilyF (_x : Nibble) (_kk : Byte) (s : State) : Result := .next s

end Sys2Proof.Machine
end

