-- ==== Sys2Proof/Machine/Immediate.lean ====
section
/-! DEFINITION. Immediate.lean: immediate load and add (43_immediate.md R160, R161). -/

namespace Sys2Proof.Machine

/-- `LD Vx, kk` (R160). -/
def execLdVxKk (x : Nibble) (kk : Byte) (s : State) : Result := .next (s.setV x kk)

/-- `ADD Vx, kk` (R161): wraps at 8 bits, no flag. -/
def execAddVxKk (x : Nibble) (kk : Byte) (s : State) : Result := .next (s.setV x (s.getV x + kk))

end Sys2Proof.Machine
end

