-- ==== Sys2Proof/Machine/IndexJumpRandom.lean ====
section
/-! DEFINITION. IndexJumpRandom.lean: index load, computed jump, random (45_index_jump_random.md R200 to R202). -/

namespace Sys2Proof.Machine

/-- `LD I, nnn` (R200): I is not checked until it is used. -/
def execLdINnn (nnn : Addr) (s : State) : Result := .next { s with i := addrOperand nnn }

/-- `JP V0, nnn` (R201). -/
def execJpV0Nnn (nnn : Addr) (s : State) : Result := .next { s with pc := computedTarget s nnn }

/-- `RND Vx, kk` (R202): the byte is a free value (log entry 1), and it is consumed for every kk. -/
def execRndVxKk (x : Nibble) (kk : Byte) (s : State) : Result :=
  .next (s.drawRandom.setV x (s.randomByte &&& kk))

end Sys2Proof.Machine
end

