-- ==== Sys2Proof/Machine/Keys.lean ====
section
/-! DEFINITION. Keys.lean: the key-test skips and the key wait (47_keys.md R241 to R244; 49_key_wait.md R280). -/

namespace Sys2Proof.Machine

/-- `SKP Vx` (R241). -/
def execSkp (x : Nibble) (s : State) : Result := withKey x (encode (.skp x)) s fun pressed => s.skipIf pressed

/-- `SKNP Vx` (R242). -/
def execSknp (x : Nibble) (s : State) : Result := withKey x (encode (.sknp x)) s fun pressed => s.skipIf !pressed

/-- A family-E no-op (R243): Vx is not read. -/
def execNopFamilyE (_x : Nibble) (_kk : Byte) (s : State) : Result := .next s

/-- `LD Vx, K` (R280): the lowest pressed key of 0..14, or PC rewound so that the instruction runs again. -/
def execLdVxK (x : Nibble) (s : State) : Result :=
  match s.firstPressed with
  | some k => .next (s.setV x (BitVec.ofNat 8 k))
  | none => .next { s with pc := s.pc - 2 }

end Sys2Proof.Machine
end

