-- ==== Sys2Proof/Machine/Skips.lean ====
section
/-! DEFINITION. Skips.lean: the conditional skips on registers (42_skips.md R140 to R144). -/

namespace Sys2Proof.Machine

/-- `SE Vx, kk` (R141). -/
def execSeVxKk (x : Nibble) (kk : Byte) (s : State) : Result := .next (s.skipIf (s.getV x == kk))

/-- `SNE Vx, kk` (R142). -/
def execSneVxKk (x : Nibble) (kk : Byte) (s : State) : Result := .next (s.skipIf (s.getV x != kk))

/-- `SE Vx, Vy` (R143). -/
def execSeVxVy (x y _n : Nibble) (s : State) : Result := .next (s.skipIf (s.getV x == s.getV y))

/-- `SNE Vx, Vy` (R144). -/
def execSneVxVy (x y _n : Nibble) (s : State) : Result := .next (s.skipIf (s.getV x != s.getV y))

end Sys2Proof.Machine
end

