-- ==== Sys2Proof/Machine/Step.lean ====
section
/-! DEFINITION. Step.lean: one cycle (40_cycle.md R100), and how the host places the next instruction. -/

namespace Sys2Proof.Machine

/-- One `cycle()` (R100): a Faulted engine does nothing (R106); else fetch, PC advance, execute, timer tick. -/
def step (s : State) : Host.Outcome State Fault Refusal :=
  match s.status with
  | .faulted _ => .next s
  | .running =>
      match s.fetch with
      | none => .next (s.enterFault (.fetchOutOfRange s.pc))
      | some w => completeCycle (exec (decode w) s.advance)

/-- `s` with the instruction that the opcode table numbers `w` placed where the next step fetches: the bytes at PC.
The fetch needs STATUS Running and PC ≤ 0xFFE; in a state that has not, they are set too (log entry 12). -/
def State.withFetchWord (s : State) (nbits w : Nat) : State :=
  let a : Word := if s.pc.toNat + 1 < Config.memSize then s.pc else BitVec.ofNat 16 Config.progBase
  { s with pc := a, status := .running, mem := s.mem.writeBlock a.toNat (tableWordBytes nbits w) }

end Sys2Proof.Machine
end

