-- ==== Sys2Proof/Machine/Port.lean ====
section
/-! DEFINITION. Port.lean: the engine's port to the host, operations between cycles (60_exceptions.md R320 to R326;
70_reset_and_hazards.md R343, R344). -/

namespace Sys2Proof.Machine

/-- `load(bytes)` (R343): an image of at most 3584 bytes goes to 0x200 on; a longer one writes nothing and faults. -/
def State.load (s : State) (bytes : List Byte) : State :=
  if bytes.length ≤ Config.maxRom then { s with mem := s.mem.writeBlock Config.progBase bytes }
  else s.enterFault (.romTooLarge bytes.length)

/-- KEY[k] written, k in 0..15; any other key event is refused (R322, D18). -/
def State.keyEvent (s : State) (k : Nat) (pressed : Bool) : Result :=
  if h : k < 16 then .next { s with keys := s.keys.set k pressed h } else .refused (.keyNumberOutOfRange k)

/-- `key_down(k)` (R240, R322). -/
def State.keyDown (s : State) (k : Nat) : Result := s.keyEvent k true

/-- `key_up(k)` (R240, R322). -/
def State.keyUp (s : State) (k : Nat) : Result := s.keyEvent k false

/-- `display()` (R323): the 2048 cells, with no side effect. -/
def State.display (s : State) : Display := s.disp

/-- `status()` (R325). -/
def State.statusPort (s : State) : Status := s.status

/-- What the host asks of the engine between cycles, and the cycle itself (R320). -/
inductive HostEvent where
  | load (bytes : List Byte)
  | cycle
  | keyDown (k : Nat)
  | keyUp (k : Nat)
deriving DecidableEq, Repr

/-- An engine and the host's protocol beside it: whether the one load has been made (R344, D19). -/
structure Session where
  engine : State
  loaded : Bool
deriving DecidableEq, Repr

/-- A new engine (R340) before its load. -/
def Session.create : Session := { engine := State.reset, loaded := false }

/-- The answer of an engine operation, as one of the session. -/
def Session.answer (loaded : Bool) : Result → Host.Outcome Session Fault Refusal
  | .next t => .next { engine := t, loaded := loaded }
  | .fault r => .fault r
  | .refused r => .refused r

/-- One host event (R320 to R322), under the protocol of exactly one load before the first cycle (R343, R344, D19). -/
def hostStep (e : HostEvent) (p : Session) : Host.Outcome Session Fault Refusal :=
  match e with
  | .load bytes =>
      if p.loaded then .refused .secondLoad else .next { engine := p.engine.load bytes, loaded := true }
  | .cycle => if p.loaded then Session.answer true (step p.engine) else .refused .cycleBeforeLoad
  | .keyDown k => Session.answer p.loaded (p.engine.keyDown k)
  | .keyUp k => Session.answer p.loaded (p.engine.keyUp k)

/-- The host events of a list in their order (R320: each is atomic and none runs beside a cycle), up to the first that
does not answer next. -/
def hostRun : List HostEvent → Session → Host.Outcome Session Fault Refusal
  | [], p => .next p
  | e :: es, p =>
      match hostStep e p with
      | .next q => hostRun es q
      | .fault r => .fault r
      | .refused r => .refused r

end Sys2Proof.Machine
end

