-- ==== Sys2Proof/Safety.lean ====
section
/-! DEFINITION. Safety.lean: the terms that claims are stated in. -/

namespace Sys2Proof.Machine

/-- The condition of MemoryOutOfRange (R300, R55): `i` is one of the four instructions that access bytes from I on, and
the last byte of its range lies above 0xFFF. A range of no bytes has none. -/
def State.RangeLeavesMemory (s : State) (i : Instr) : Prop :=
  (∃ x y n, i = .drw x y n ∧ n ≠ 0#4 ∧ 0x1000 < s.i.toNat + n.toNat) ∨
  (∃ x, i = .ldBVx x ∧ 0xFFF < s.i.toNat + 2) ∨
  (∃ x, i = .ldMemVx x ∧ 0xFFF < s.i.toNat + x.toNat) ∨
  (∃ x, i = .ldVxMem x ∧ 0xFFF < s.i.toNat + x.toNat)

/-- The condition of KeyIndexOutOfRange (R300, R244): `i` is a key test, and `key`, the byte in the register that it
names, is no key number. -/
def State.TestsAbsentKey (s : State) (i : Instr) (key : Byte) : Prop :=
  ∃ x, (i = .skp x ∨ i = .sknp x) ∧ key = s.getV x ∧ 0xF < key.toNat

/-- A fatal fault that STATUS reports is true of the state it stopped in. The state kept is the state before the
faulting cycle (R301), so the reported pc is its PC, the reported word stands there and is one of the instructions that
raise the fault, and the condition and the info of R300 are those of that instruction in this state. -/
def State.reportHolds (s : State) : FatalFault → Prop
  | .stackOverflow pc word => pc = s.pc ∧ s.fetch = some word ∧ (∃ nnn, decode word = .call nnn) ∧ s.sp.toNat = 16
  | .stackUnderflow pc word => pc = s.pc ∧ s.fetch = some word ∧ (∃ x, decode word = .ret x) ∧ s.sp.toNat = 0
  | .fetchOutOfRange pc => pc = s.pc ∧ 0xFFE < s.pc.toNat
  | .memoryOutOfRange pc word addr =>
      pc = s.pc ∧ s.fetch = some word ∧ s.RangeLeavesMemory (decode word) ∧ addr = max s.i.toNat 0x1000
  | .keyIndexOutOfRange pc word key => pc = s.pc ∧ s.fetch = some word ∧ s.TestsAbsentKey (decode word) key
  | .romTooLarge len => 3584 < len

/-- STATUS is Running or reports a fault that holds. -/
def State.statusHolds (s : State) : Prop :=
  match s.status with
  | .running => True
  | .faulted f => s.reportHolds f

/-- The invariant of the engine: memory in canonical form, SP in 0..16 (R27), PC and every stack entry as far as they
can go (R24, R121), and a fault report that is true of the state. -/
structure State.Inv (s : State) : Prop where
  mem_wf : s.mem.wf = true
  sp_le : s.sp.toNat ≤ 16
  pc_le : s.pc.toNat ≤ 0x10FE
  stack_le : ∀ j : Fin 16, (s.stack.get j).toNat ≤ 0x1000
  status_holds : s.statusHolds

/-- A sprite of `rows` at (x0, y0) has a set bit over pixel (px, py), px < 64 and py < 32 (R221, R222): the column is
the distance to the right of x0 and the row the distance below y0, both with wrapping. -/
def spriteCovers (x0 y0 : Byte) (rows : List Byte) (px py : Nat) : Bool :=
  let col := (px + 64 - x0.toNat % 64) % 64
  let row := (py + 32 - y0.toNat % 32) % 32
  decide (col < 8) && (rows.getD row 0x00#8).getLsbD (7 - col)

/-- What address `a` reads as once `bytes` stand from `base` on in memory `m`: the byte stored there, else as before
(R53, R57). -/
def byteAfterStore (m : Memory) (base : Nat) (bytes : List Byte) (a : Nat) : Byte :=
  if base ≤ a then bytes.getD (a - base) (m.read a) else m.read a

/-- A host event that leaves the keys 0..14 released where they are: a cycle, a press of key 15, a release of any key. -/
def HostEvent.pressesOnlyFifteen : HostEvent → Prop
  | .load _ => False
  | .cycle => True
  | .keyDown k => k = 15
  | .keyUp k => k ≤ 15

/-- The execute-step state `s` after the fault `f` was raised in it: PC is back at the instruction, STATUS is Faulted,
and nothing else has changed (R105, R301). -/
def State.stoppedWith (s : State) (f : FatalFault) : State := { s with pc := s.pc - 2, status := .faulted f }

/-- Two states that differ at most in stale stack entries, those at index SP and above (R28). -/
def State.AgreeOnLiveStack (s t : State) : Prop :=
  { s with stack := t.stack } = t ∧ ∀ j : Fin 16, j.val < s.sp.toNat → s.stack.get j = t.stack.get j

/-- An answer with the keys of its next state replaced. -/
def withKeysIn (keys : Vector Bool 16) : Result → Result
  | .next t => .next { t with keys := keys }
  | .fault r => .fault r
  | .refused r => .refused r

/-- A row of the opcode table (R82): a word `w` fits it when `w &&& mask = pattern`. -/
structure OpcodeRow where
  mnemonic : String
  mask : Word
  pattern : Word
deriving DecidableEq, Repr

/-- The word fits the row. -/
def OpcodeRow.fits (r : OpcodeRow) (w : Word) : Bool := w &&& r.mask == r.pattern

/-- The row of spec/opcode_table.json that an instruction belongs to. -/
def opcodeRow : Instr → OpcodeRow
  | .cls _ => ⟨"CLS", 0xF0FF#16, 0x00E0#16⟩
  | .ret _ => ⟨"RET", 0xF0FF#16, 0x00EE#16⟩
  | .nopFamily0 _ => ⟨"NOP__family_0__other_kk", 0xF000#16, 0x0000#16⟩
  | .jp _ => ⟨"JP_nnn", 0xF000#16, 0x1000#16⟩
  | .call _ => ⟨"CALL_nnn", 0xF000#16, 0x2000#16⟩
  | .seVxKk _ _ => ⟨"SE_Vx__kk", 0xF000#16, 0x3000#16⟩
  | .sneVxKk _ _ => ⟨"SNE_Vx__kk", 0xF000#16, 0x4000#16⟩
  | .seVxVy _ _ _ => ⟨"SE_Vx__Vy", 0xF000#16, 0x5000#16⟩
  | .ldVxKk _ _ => ⟨"LD_Vx__kk", 0xF000#16, 0x6000#16⟩
  | .addVxKk _ _ => ⟨"ADD_Vx__kk", 0xF000#16, 0x7000#16⟩
  | .ldVxVy _ _ => ⟨"LD_Vx__Vy", 0xF00F#16, 0x8000#16⟩
  | .orVxVy _ _ => ⟨"OR_Vx__Vy", 0xF00F#16, 0x8001#16⟩
  | .andVxVy _ _ => ⟨"AND_Vx__Vy", 0xF00F#16, 0x8002#16⟩
  | .xorVxVy _ _ => ⟨"XOR_Vx__Vy", 0xF00F#16, 0x8003#16⟩
  | .addVxVy _ _ => ⟨"ADD_Vx__Vy", 0xF00F#16, 0x8004#16⟩
  | .subVxVy _ _ => ⟨"SUB_Vx__Vy", 0xF00F#16, 0x8005#16⟩
  | .shrVx _ _ => ⟨"SHR_Vx", 0xF00F#16, 0x8006#16⟩
  | .subnVxVy _ _ => ⟨"SUBN_Vx__Vy", 0xF00F#16, 0x8007#16⟩
  | .shlVx _ _ => ⟨"SHL_Vx", 0xF00F#16, 0x800E#16⟩
  | .nopFamily8 _ _ _ => ⟨"NOP__family_8__other_n", 0xF000#16, 0x8000#16⟩
  | .sneVxVy _ _ _ => ⟨"SNE_Vx__Vy", 0xF000#16, 0x9000#16⟩
  | .ldINnn _ => ⟨"LD_I__nnn", 0xF000#16, 0xA000#16⟩
  | .jpV0Nnn _ => ⟨"JP_V0__nnn", 0xF000#16, 0xB000#16⟩
  | .rndVxKk _ _ => ⟨"RND_Vx__kk", 0xF000#16, 0xC000#16⟩
  | .drw _ _ _ => ⟨"DRW_Vx__Vy__n", 0xF000#16, 0xD000#16⟩
  | .skp _ => ⟨"SKP_Vx", 0xF0FF#16, 0xE09E#16⟩
  | .sknp _ => ⟨"SKNP_Vx", 0xF0FF#16, 0xE0A1#16⟩
  | .nopFamilyE _ _ => ⟨"NOP__family_E__other_kk", 0xF000#16, 0xE000#16⟩
  | .ldVxDt _ => ⟨"LD_Vx__DT", 0xF0FF#16, 0xF007#16⟩
  | .ldVxK _ => ⟨"LD_Vx__K", 0xF0FF#16, 0xF00A#16⟩
  | .ldDtVx _ => ⟨"LD_DT__Vx", 0xF0FF#16, 0xF015#16⟩
  | .addIVx _ => ⟨"ADD_I__Vx", 0xF0FF#16, 0xF01E#16⟩
  | .ldFVx _ => ⟨"LD_F__Vx", 0xF0FF#16, 0xF029#16⟩
  | .ldBVx _ => ⟨"LD_B__Vx", 0xF0FF#16, 0xF033#16⟩
  | .ldMemVx _ => ⟨"LD__I___Vx", 0xF0FF#16, 0xF055#16⟩
  | .ldVxMem _ => ⟨"LD_Vx___I", 0xF0FF#16, 0xF065#16⟩
  | .nopFamilyF _ _ => ⟨"NOP__family_F__other_kk", 0xF000#16, 0xF000#16⟩

/-- The rows of spec/opcode_table.json in table order, each by an instruction of it. -/
def opcodeTable : List OpcodeRow :=
  (([.cls 0, .ret 0, .nopFamily0 0, .jp 0, .call 0, .seVxKk 0 0, .sneVxKk 0 0, .seVxVy 0 0 0, .ldVxKk 0 0,
    .addVxKk 0 0, .ldVxVy 0 0, .orVxVy 0 0, .andVxVy 0 0, .xorVxVy 0 0, .addVxVy 0 0, .subVxVy 0 0, .shrVx 0 0,
    .subnVxVy 0 0, .shlVx 0 0, .nopFamily8 0 0 0] ++
   [.sneVxVy 0 0 0, .ldINnn 0, .jpV0Nnn 0, .rndVxKk 0 0, .drw 0 0 0, .skp 0, .sknp 0, .nopFamilyE 0 0, .ldVxDt 0,
    .ldVxK 0, .ldDtVx 0, .addIVx 0, .ldFVx 0, .ldBVx 0, .ldMemVx 0, .ldVxMem 0, .nopFamilyF 0 0]) :
    List Instr).map opcodeRow

end Sys2Proof.Machine
end

