-- ==== Sys2Proof/Certificates/Slice0/Obligations.lean ====
section
/-! DEFINITION. Obligations.lean: the statements for the provers. In a statement about `exec`, `s` is the state of the
execute step: PC already holds a + 2, so the instruction's own address is `s.pc - 2` (R13, R23). A cycle
that raises a fatal fault answers a next state too, one whose STATUS is Faulted (log entry 4, DESIGN CHOICE). -/

open Sys2Proof Sys2Proof.Machine

/-! ### Encoding -/

/-- R72, R83 (opcode numbers by decision D13): for every well-formed instruction with every operand, decoding its word,
or its bytes in front of any others, gives it back. That the bits no rule examines are among the operands is the model's
choice of log entry 7 (DESIGN CHOICE). -/
def Obligations.DecodeOfEncodeIsTheInstruction : Prop :=
  ∀ i : Instr, i.wellFormed = true →
    decode (encode i) = i ∧ ∀ rest, decodeBytes (encodeBytes i ++ rest) = .ok (i, rest)

/-- R81 (the spec's "derived: from rules R74 to R80"): every one of the 65536 words decodes to a well-formed
instruction. That this instruction's word is the word itself, in the bits that no rule examines too (x of `CLS` and `RET`,
n of `SE Vx,Vy` and `SNE Vx,Vy`, y of the shifts, the operands of the no-ops), is no part of R81: it is the model's choice
of log entry 7 (DESIGN CHOICE) that an instruction keeps those bits, where R84 has an assembler write don't-care bits
as 0. -/
def Obligations.EveryWordIsOneWellFormedInstruction : Prop :=
  ∀ w : Word, (decode w).wellFormed = true ∧ encode (decode w) = w

/-- R82 (the spec's "derived: from rules R74 to R80"): the two-level dispatch selects the first row of the opcode
table, in table order, whose mask and match fit the word. -/
def Obligations.DecodeSelectsTheFirstFittingRow : Prop :=
  ∀ w : Word, opcodeTable.find? (fun r => r.fits w) = some (opcodeRow (decode w))

/-- The opcode map R83 on words written out from it (opcode numbers by decision D13). -/
def Obligations.WordsWrittenOutDecodeAsTheMapSays : Prop :=
  decode 0x00E0#16 = .cls 0x0#4 ∧ decode 0x01E0#16 = .cls 0x1#4 ∧ decode 0x2300#16 = .call 0x300#12 ∧
  decode 0x320A#16 = .seVxKk 0x2#4 0x0A#8 ∧ decode 0x6007#16 = .ldVxKk 0x0#4 0x07#8 ∧
  decode 0x8434#16 = .addVxVy 0x4#4 0x3#4 ∧ decode 0x8018#16 = .nopFamily8 0x0#4 0x1#4 0x8#4 ∧
  decode 0xA250#16 = .ldINnn 0x250#12 ∧ decode 0xD125#16 = .drw 0x1#4 0x2#4 0x5#4 ∧
  decode 0xE59E#16 = .skp 0x5#4 ∧ decode 0xF30A#16 = .ldVxK 0x3#4 ∧
  decode 0xF318#16 = .nopFamilyF 0x3#4 0x18#8

/-! ### The cycle -/

/-- R100, whole: a Faulted engine is returned as it is; a fetch above 0xFFE raises FetchOutOfRange; else, when the two
bytes at PC are those of a well-formed instruction `i` (high byte first), the step is `exec i` with PC advanced by 2
and, unless that raises a fault, the delay timer counted down by one with a floor of 0. -/
def Obligations.StepRunsTheDecodedInstruction : Prop :=
  ∀ s : State,
    (∀ f, s.status = .faulted f → step s = .next s) ∧
    (s.status = .running → 0xFFE < s.pc.toNat →
      step s = .next { s with status := .faulted (.fetchOutOfRange s.pc) }) ∧
    (∀ i : Instr, i.wellFormed = true → s.status = .running → s.pc.toNat ≤ 0xFFE →
      wordOfBytes (s.mem.read s.pc.toNat) (s.mem.read (s.pc.toNat + 1)) = encode i →
      step s =
        match exec i { s with pc := s.pc + 2 } with
        | .next t =>
            .next (if t.status = .running then { t with dt := if t.dt = 0#8 then 0#8 else t.dt - 1 } else t)
        | .fault r => .fault r
        | .refused r => .refused r)

/-- R106, R303 (decision D1): no number of further cycles changes a Faulted engine. The cycles follow each other with no
host event between them, as in every run of `Host.Core.run` (log entry 10). -/
def Obligations.FaultedEngineStaysAsItIs : Prop :=
  ∀ (s : State) (f : FatalFault), s.status = .faulted f → ∀ n : Nat, Host.Core.run core n s = .next s

/-- R104, whole: in every cycle that completes, whatever its instruction, DT ends as the DT that the execute step left,
counted down by one with a floor of 0. The execute step leaves the old DT, but for `LD DT,Vx`, which leaves Vx.
`LD Vx,DT` reads DT before the tick. -/
def Obligations.TimerTicksInEveryCompletedCycle : Prop :=
  ∀ (s t : State) (w : Word), s.status = .running → s.fetch = some w → step s = .next t → t.status = .running →
    (∀ x, decode w = .ldDtVx x → t.dt.toNat = (s.getV x).toNat - 1) ∧
    ((∀ x, decode w ≠ .ldDtVx x) → t.dt.toNat = s.dt.toNat - 1) ∧
    (∀ x, decode w = .ldVxDt x → t.getV x = s.dt)

/-- R105, R301 (decision D1): a cycle that raises a fault changes STATUS and nothing else, PC and DT included, and
reports a fault that records the PC, and, but for a failed fetch, the fetched word. -/
def Obligations.FaultingCycleChangesOnlyStatus : Prop :=
  ∀ (s t : State) (f : FatalFault), s.status = .running → step s = .next t → t.status = .faulted f →
    t = { s with status := .faulted f } ∧
    match f with
    | .stackOverflow pc word => pc = s.pc ∧ s.fetch = some word
    | .stackUnderflow pc word => pc = s.pc ∧ s.fetch = some word
    | .fetchOutOfRange pc => pc = s.pc ∧ s.fetch = none
    | .memoryOutOfRange pc word _ => pc = s.pc ∧ s.fetch = some word
    | .keyIndexOutOfRange pc word _ => pc = s.pc ∧ s.fetch = some word
    | .romTooLarge _ => False

/-- R282 (the spec's "derived: from rule R280") for a KEY that does not change: with none of the keys 0..14 pressed, an
engine at `LD Vx, K` stays there for any number of cycles, and only its delay timer counts down (R104). It rests on the
model's choice of log entry 10 (DESIGN CHOICE): a run of `Host.Core.run` has no key event in it, so key 15 too stays as it
is. Runs in which the host changes keys: KeyWaitNeverEndsWhateverKeyFifteenDoes. -/
def Obligations.KeyWaitNeverEndsWithoutAKey : Prop :=
  ∀ (s : State) (x : Nibble), s.status = .running → s.fetch = some (encode (.ldVxK x)) →
    (∀ k : Fin 16, k.val < 15 → s.keys.get k = false) →
    ∀ n : Nat, Host.Core.run core n s = .next { s with dt := BitVec.ofNat 8 (s.dt.toNat - n) }

/-! ### The invariant -/

/-- The invariant holds at reset (R37). -/
def Obligations.ResetMeetsTheInvariant : Prop := State.reset.Inv

/-- From every state that meets the invariant a step gives a state that meets it: memory stays canonical and inside
0x000..0xFFF, SP in 0..16 (R27), PC and the stack entries in their bounds (R24), and a fault that STATUS reports is true
of the state it stopped in: the reported word stands at PC, is an instruction that raises the fault, and meets its
condition there, with the info of R300 (R300, R301). -/
def Obligations.EveryStepKeepsTheInvariant : Prop :=
  ∀ s t : State, s.Inv → step s = .next t → t.Inv

/-- From a state that meets the invariant the model never stops: `step` answers a next state. Not every such cycle is one
that completes (R104, R105): that a cycle which raises a fatal fault, and a request to a Faulted engine, answer a next
state too is the model's choice of log entry 4 (DESIGN CHOICE), and the state then has STATUS Faulted. The model's one
stop, `RET` with an SP above 16 (log entry 5, DESIGN CHOICE), is ruled out by the invariant. No word lacks a meaning
(R81). -/
def Obligations.EveryCycleOfALegalEngineAnswersNext : Prop :=
  ∀ s : State, s.Inv → ∃ t, step s = .next t

/-- Every event of the host port keeps the invariant of the engine, and an engine whose program is not loaded yet is
Running (R320 to R322, R343, R344). -/
def Obligations.EveryHostEventKeepsTheInvariant : Prop :=
  ∀ (e : HostEvent) (p q : Session), p.engine.Inv → (p.loaded = false → p.engine.status = .running) →
    hostStep e p = .next q → q.engine.Inv ∧ (q.loaded = false → q.engine.status = .running)

/-! ### Whole-machine rules: who writes and who reads what -/

/-- R32, whole: KEY is changed only by the key events of the host port, no instruction writes it, and an instruction
other than `SKP`, `SKNP` and `LD Vx,K` does the same whatever KEY holds. -/
def Obligations.KeysAreWrittenByTheHostAndReadByThreeInstructions : Prop :=
  (∀ (i : Instr) (s t : State), exec i s = .next t → t.keys = s.keys) ∧
  (∀ (i : Instr) (s : State) (keys : Vector Bool 16),
    (∀ x, i ≠ .skp x) → (∀ x, i ≠ .sknp x) → (∀ x, i ≠ .ldVxK x) →
    exec i { s with keys := keys } = withKeysIn keys (exec i s)) ∧
  (∀ (e : HostEvent) (p q : Session), (∀ k, e ≠ .keyDown k) → (∀ k, e ≠ .keyUp k) → hostStep e p = .next q →
    q.engine.keys = p.engine.keys)

/-- R225, R31: only `CLS` and `DRW` change the display. -/
def Obligations.DisplayIsWrittenOnlyByClsAndDrw : Prop :=
  ∀ (i : Instr) (s t : State), exec i s = .next t → (∀ x, i ≠ .cls x) → (∀ x y n, i ≠ .drw x y n) → t.disp = s.disp

/-- R56, R58: only `LD B,Vx` and `LD [I],Vx` write memory. -/
def Obligations.MemoryIsWrittenOnlyByBcdAndBlockStore : Prop :=
  ∀ (i : Instr) (s t : State), exec i s = .next t → (∀ x, i ≠ .ldBVx x) → (∀ x, i ≠ .ldMemVx x) → t.mem = s.mem

/-- R26 (decision D8): only `LD I,nnn`, `ADD I,Vx` and `LD F,Vx` write I. -/
def Obligations.IndexIsWrittenByThreeInstructions : Prop :=
  ∀ (i : Instr) (s t : State), exec i s = .next t →
    (∀ nnn, i ≠ .ldINnn nnn) → (∀ x, i ≠ .addIVx x) → (∀ x, i ≠ .ldFVx x) → t.i = s.i

/-- R27, R28 (the spec's "derived: from rules R121 and R124"): only `CALL` and `RET` change SP, and only `CALL` changes
the call stack, at entry SP alone. -/
def Obligations.StackIsChangedOnlyByCallAndRet : Prop :=
  ∀ (i : Instr) (s t : State), exec i s = .next t →
    ((∀ nnn, i ≠ .call nnn) → t.stack = s.stack ∧ ((∀ x, i ≠ .ret x) → t.sp = s.sp)) ∧
    (∀ j : Fin 16, j.val ≠ s.sp.toNat → t.stack.get j = s.stack.get j)

/-- R22 (decision D7): VF changes only in the six instructions that write a flag, or in one that names VF as its
destination: of `LD Vx,[I]` only x = 0xF reaches it. -/
def Obligations.FlagRegisterIsWrittenOnlyByItsWriters : Prop :=
  ∀ (i : Instr) (s t : State), exec i s = .next t → t.getV 0xF#4 ≠ s.getV 0xF#4 →
    (∃ x y, i = .addVxVy x y) ∨ (∃ x y, i = .subVxVy x y) ∨ (∃ x y, i = .shrVx x y) ∨ (∃ x y, i = .subnVxVy x y) ∨
    (∃ x y, i = .shlVx x y) ∨ (∃ x y n, i = .drw x y n) ∨
    (∃ kk, i = .ldVxKk 0xF#4 kk) ∨ (∃ kk, i = .addVxKk 0xF#4 kk) ∨ (∃ y, i = .ldVxVy 0xF#4 y) ∨
    (∃ y, i = .orVxVy 0xF#4 y) ∨ (∃ y, i = .andVxVy 0xF#4 y) ∨ (∃ y, i = .xorVxVy 0xF#4 y) ∨
    (∃ kk, i = .rndVxKk 0xF#4 kk) ∨ i = .ldVxDt 0xF#4 ∨ i = .ldVxK 0xF#4 ∨ i = .ldVxMem 0xF#4

/-- R109 (a derived rule of the spec): in a Running engine, the only one that executes (R106), an instruction that is no
jump, call, return, skip or key wait leaves PC = a + 2 when it raises no fault. -/
def Obligations.OtherInstructionsLeavePcAtTheNextWord : Prop :=
  ∀ (i : Instr) (s t : State), s.status = .running → exec i s = .next t → t.status = .running →
    (∀ x, i ≠ .ret x) → (∀ nnn, i ≠ .jp nnn) → (∀ nnn, i ≠ .call nnn) → (∀ x kk, i ≠ .seVxKk x kk) →
    (∀ x kk, i ≠ .sneVxKk x kk) → (∀ x y n, i ≠ .seVxVy x y n) → (∀ x y n, i ≠ .sneVxVy x y n) →
    (∀ nnn, i ≠ .jpV0Nnn nnn) → (∀ x, i ≠ .skp x) → (∀ x, i ≠ .sknp x) → (∀ x, i ≠ .ldVxK x) → t.pc = s.pc

/-- R108 (decision D14), in the model's own terms of log entry 1: only `RND` draws from the random-byte source, one
byte per execution. -/
def Obligations.OnlyRndDrawsRandomBytes : Prop :=
  ∀ (i : Instr) (s t : State), exec i s = .next t →
    ((∃ x kk, i = .rndVxKk x kk) → t.rngDraws = s.rngDraws + 1) ∧
    ((∀ x kk, i ≠ .rndVxKk x kk) → t.rngDraws = s.rngDraws)

/-- R28, R36 (derived rules of the spec): stale stack entries are never observed. Of two engines that differ in stale
entries only, each instruction makes two engines that differ in stale entries only. -/
def Obligations.StaleStackEntriesAreNeverObserved : Prop :=
  ∀ (i : Instr) (s s' t : State), s.AgreeOnLiveStack s' → exec i s = .next t →
    ∃ t', exec i s' = .next t' ∧ t.AgreeOnLiveStack t'

/-! ### Family 0, jumps and calls -/

/-- R220 and the execute step of R120: `CLS` turns all 2048 cells off and changes nothing else. -/
def Obligations.ClsTurnsEveryPixelOff : Prop :=
  ∀ (x : Nibble) (s : State), ∃ t, exec (.cls x) s = .next t ∧ t = { s with disp := t.disp } ∧
    ∀ k : Fin 2048, t.disp.get k = false

/-- R121 (decisions D1, D4), with SP in 1..16: `RET` pops entry SP - 1 into PC, does not clear it and changes nothing
else. -/
def Obligations.RetPopsTheReturnAddress : Prop :=
  ∀ (x : Nibble) (s : State) (j : Fin 16), s.sp.toNat = j.val + 1 →
    exec (.ret x) s = .next { s with sp := BitVec.ofNat 8 j.val, pc := s.stack.get j }

/-- R121, R301 (decision D1): `RET` with an empty stack faults with StackUnderflow and changes nothing else. -/
def Obligations.RetOnAnEmptyStackFaults : Prop :=
  ∀ (x : Nibble) (s : State), s.sp = 0#8 →
    exec (.ret x) s =
      .next (s.stoppedWith
      (.stackUnderflow (s.pc - 2) (encode (.ret x))))

/-- The model's choice of log entry 5: with an SP above 16, which R27 says never arises, `RET` stops by name. -/
def Obligations.RetAboveSixteenStops : Prop :=
  ∀ (x : Nibble) (s : State), 16 < s.sp.toNat → exec (.ret x) s = .fault (.stackEntryAbsent s.sp)

/-- R124 (decision D1), with a free entry: `CALL nnn` stores PC, which is a + 2, at entry SP, adds one to SP and jumps;
nothing else changes. -/
def Obligations.CallPushesTheReturnAddress : Prop :=
  ∀ (nnn : Addr) (s : State) (j : Fin 16), s.sp.toNat = j.val →
    ∃ t, exec (.call nnn) s = .next t ∧ t = { s with pc := t.pc, sp := t.sp, stack := t.stack } ∧
      t.pc.toNat = nnn.toNat ∧ t.sp.toNat = j.val + 1 ∧ t.stack.get j = s.pc ∧
      ∀ k : Fin 16, k ≠ j → t.stack.get k = s.stack.get k

/-- R124, R301 (decision D1): `CALL` with a full stack faults with StackOverflow and changes nothing else. -/
def Obligations.CallOnAFullStackFaults : Prop :=
  ∀ (nnn : Addr) (s : State), 16 ≤ s.sp.toNat →
    exec (.call nnn) s =
      .next (s.stoppedWith
      (.stackOverflow (s.pc - 2) (encode (.call nnn))))

/-- R123, R201 (decision D3): the jumps write nnn, or nnn + V0, to PC, not masked to 12 bits, and nothing else. -/
def Obligations.JumpsSetOnlyThePc : Prop :=
  (∀ (nnn : Addr) (s : State), exec (.jp nnn) s = .next { s with pc := BitVec.ofNat 16 nnn.toNat }) ∧
  (∀ (nnn : Addr) (s : State),
    exec (.jpV0Nnn nnn) s = .next { s with pc := BitVec.ofNat 16 (nnn.toNat + (s.getV 0x0#4).toNat) })

/-- R80, R180, R243, R257: a word of family 8, E or F with an unrecognised secondary opcode is a no-op: its execute step
changes nothing, and its cycle advances PC by 2 and ticks the timer. -/
def Obligations.UnrecognisedSecondaryOpcodesAreNoOps : Prop :=
  (∀ (x y n : Nibble) (kk : Byte) (s : State),
    exec (.nopFamily8 x y n) s = .next s ∧ exec (.nopFamilyE x kk) s = .next s ∧ exec (.nopFamilyF x kk) s = .next s) ∧
  (∀ (s : State) (w : Word), s.status = .running → s.fetch = some w →
    ((w.extractLsb' 12 4 = 0x8#4 ∧ w.extractLsb' 0 4 ∈ [0x8#4, 0x9#4, 0xA#4, 0xB#4, 0xC#4, 0xD#4, 0xF#4]) ∨
     (w.extractLsb' 12 4 = 0xE#4 ∧ w.extractLsb' 0 8 ∉ [0x9E#8, 0xA1#8]) ∨
     (w.extractLsb' 12 4 = 0xF#4 ∧
       w.extractLsb' 0 8 ∉ [0x07#8, 0x0A#8, 0x15#8, 0x1E#8, 0x29#8, 0x33#8, 0x55#8, 0x65#8])) →
    step s = .next { s with pc := s.pc + 2, dt := if s.dt = 0#8 then 0#8 else s.dt - 1 })

/-- R122 (selected by the low byte alone, by decision D4): a word of family 0 whose low byte is neither 0xE0 nor 0xEE is a
no-op, in its execute step and in its whole cycle. -/
def Obligations.FamilyZeroOtherWordsAreNoOps : Prop :=
  (∀ (nnn : Addr) (s : State), exec (.nopFamily0 nnn) s = .next s) ∧
  (∀ (s : State) (w : Word), s.status = .running → s.fetch = some w → w.extractLsb' 12 4 = 0x0#4 →
    w.extractLsb' 0 8 ≠ 0xE0#8 → w.extractLsb' 0 8 ≠ 0xEE#8 →
    step s = .next { s with pc := s.pc + 2, dt := if s.dt = 0#8 then 0#8 else s.dt - 1 })

/-! ### Skips -/

/-- R140 to R144 (R140 is derived; decisions D5, D13): a skip adds 2 to PC when its condition holds and changes nothing
else. -/
def Obligations.SkipsAddTwoToPcOnMatch : Prop :=
  ∀ (x y n : Nibble) (kk : Byte) (s : State),
    exec (.seVxKk x kk) s = .next { s with pc := if s.getV x = kk then s.pc + 2 else s.pc } ∧
    exec (.sneVxKk x kk) s = .next { s with pc := if s.getV x ≠ kk then s.pc + 2 else s.pc } ∧
    exec (.seVxVy x y n) s = .next { s with pc := if s.getV x = s.getV y then s.pc + 2 else s.pc } ∧
    exec (.sneVxVy x y n) s = .next { s with pc := if s.getV x ≠ s.getV y then s.pc + 2 else s.pc }

/-- R241, R242 (decisions D10, D13), with a key number in Vx: `SKP` skips when the key is pressed, `SKNP` when it is
released; nothing else changes. -/
def Obligations.KeySkipsTestTheNamedKey : Prop :=
  ∀ (x : Nibble) (s : State) (k : Fin 16), (s.getV x).toNat = k.val →
    exec (.skp x) s = .next { s with pc := if s.keys.get k = true then s.pc + 2 else s.pc } ∧
    exec (.sknp x) s = .next { s with pc := if s.keys.get k = false then s.pc + 2 else s.pc }

/-- R244, R301 (decision D10): a key test with Vx above 0x0F faults with KeyIndexOutOfRange and changes nothing else. -/
def Obligations.KeySkipsFaultAboveFifteen : Prop :=
  ∀ (x : Nibble) (s : State), 0xF < (s.getV x).toNat →
    exec (.skp x) s = .next (s.stoppedWith
      (.keyIndexOutOfRange (s.pc - 2) (encode (.skp x)) (s.getV x))) ∧
    exec (.sknp x) s = .next (s.stoppedWith
      (.keyIndexOutOfRange (s.pc - 2) (encode (.sknp x)) (s.getV x)))

/-! ### Immediate and register arithmetic -/

/-- R160, whole: the words 6xkk are `LD Vx, kk`, which writes kk to Vx and changes nothing else. -/
def Obligations.LoadImmediateWritesKk : Prop :=
  ∀ (x : Nibble) (kk : Byte) (s : State), decode (0x6#4 ++ x ++ kk) = .ldVxKk x kk ∧
    ∃ t, exec (.ldVxKk x kk) s = .next t ∧ t = { s with v := t.v } ∧ t.getV x = kk ∧
      ∀ r, r ≠ x → t.getV r = s.getV r

/-- R161 (opcode number by decision D13): `ADD Vx, kk` wraps at 8 bits, and VF is no flag of it. -/
def Obligations.AddImmediateWrapsWithoutFlag : Prop :=
  ∀ (x : Nibble) (kk : Byte) (s : State), ∃ t, exec (.addVxKk x kk) s = .next t ∧ t = { s with v := t.v } ∧
    (t.getV x).toNat = ((s.getV x).toNat + kk.toNat) % 256 ∧ ∀ r, r ≠ x → t.getV r = s.getV r

/-- R171 to R174 (opcode numbers by decision D13): assign, OR, AND and XOR, bit by bit, write Vx alone. -/
def Obligations.LogicWritesOnlyTheDestination : Prop :=
  ∀ (x y : Nibble) (s : State),
    (∃ t, exec (.ldVxVy x y) s = .next t ∧ t = { s with v := t.v } ∧ t.getV x = s.getV y ∧
      ∀ r, r ≠ x → t.getV r = s.getV r) ∧
    (∃ t, exec (.orVxVy x y) s = .next t ∧ t = { s with v := t.v } ∧
      (∀ b < 8, (t.getV x).getLsbD b = ((s.getV x).getLsbD b || (s.getV y).getLsbD b)) ∧
      ∀ r, r ≠ x → t.getV r = s.getV r) ∧
    (∃ t, exec (.andVxVy x y) s = .next t ∧ t = { s with v := t.v } ∧
      (∀ b < 8, (t.getV x).getLsbD b = ((s.getV x).getLsbD b && (s.getV y).getLsbD b)) ∧
      ∀ r, r ≠ x → t.getV r = s.getV r) ∧
    (∃ t, exec (.xorVxVy x y) s = .next t ∧ t = { s with v := t.v } ∧
      (∀ b < 8, (t.getV x).getLsbD b = ((s.getV x).getLsbD b ^^ (s.getV y).getLsbD b)) ∧
      ∀ r, r ≠ x → t.getV r = s.getV r)

/-- R175, R170 (flag last by decision D7): `ADD Vx, Vy` leaves the carry in VF, and the sum in Vx unless x is F. -/
def Obligations.AddSetsCarry : Prop :=
  ∀ (x y : Nibble) (s : State), ∃ t, exec (.addVxVy x y) s = .next t ∧ t = { s with v := t.v } ∧
    (x ≠ 0xF#4 → (t.getV x).toNat = ((s.getV x).toNat + (s.getV y).toNat) % 256) ∧
    t.getV 0xF#4 = (if 0xFF < (s.getV x).toNat + (s.getV y).toNat then 1#8 else 0#8) ∧
    ∀ r, r ≠ x → r ≠ 0xF#4 → t.getV r = s.getV r

/-- R176, R178, R170 (flag last by decision D7): `SUB` and `SUBN` leave NOT borrow in VF, and the difference modulo 256
in Vx unless x is F. -/
def Obligations.SubtractsSetNotBorrow : Prop :=
  ∀ (x y : Nibble) (s : State),
    (∃ t, exec (.subVxVy x y) s = .next t ∧ t = { s with v := t.v } ∧
      (x ≠ 0xF#4 → (t.getV x).toNat = ((s.getV x).toNat + 0x100 - (s.getV y).toNat) % 256) ∧
      t.getV 0xF#4 = (if (s.getV y).toNat ≤ (s.getV x).toNat then 1#8 else 0#8) ∧
      ∀ r, r ≠ x → r ≠ 0xF#4 → t.getV r = s.getV r) ∧
    (∃ t, exec (.subnVxVy x y) s = .next t ∧ t = { s with v := t.v } ∧
      (x ≠ 0xF#4 → (t.getV x).toNat = ((s.getV y).toNat + 0x100 - (s.getV x).toNat) % 256) ∧
      t.getV 0xF#4 = (if (s.getV x).toNat ≤ (s.getV y).toNat then 1#8 else 0#8) ∧
      ∀ r, r ≠ x → r ≠ 0xF#4 → t.getV r = s.getV r)

/-- R177, R179, R170 (Vx in place by decision D6, flag last by D7): the shifts by one leave the bit shifted out in VF,
and the shifted Vx in Vx unless x is F; Vy is not used. -/
def Obligations.ShiftsSetTheBitShiftedOut : Prop :=
  ∀ (x y : Nibble) (s : State),
    (∃ t, exec (.shrVx x y) s = .next t ∧ t = { s with v := t.v } ∧
      (x ≠ 0xF#4 → (t.getV x).toNat = (s.getV x).toNat / 2) ∧
      (t.getV 0xF#4).toNat = (s.getV x).toNat % 2 ∧
      ∀ r, r ≠ x → r ≠ 0xF#4 → t.getV r = s.getV r) ∧
    (∃ t, exec (.shlVx x y) s = .next t ∧ t = { s with v := t.v } ∧
      (x ≠ 0xF#4 → (t.getV x).toNat = (s.getV x).toNat * 2 % 256) ∧
      (t.getV 0xF#4).toNat = (s.getV x).toNat / 128 ∧
      ∀ r, r ≠ x → r ≠ 0xF#4 → t.getV r = s.getV r)

/-! ### Index, random, timer -/

/-- R200, whole: the words Annn are `LD I, nnn`, which writes nnn to I and changes nothing else. -/
def Obligations.LoadIndexWritesNnn : Prop :=
  ∀ (nnn : Addr) (s : State), decode (0xA#4 ++ nnn) = .ldINnn nnn ∧
    exec (.ldINnn nnn) s = .next { s with i := BitVec.ofNat 16 nnn.toNat }

/-- R252, R253 (opcode numbers by decision D13): `ADD I, Vx` wraps at 16 bits, `LD F, Vx` writes 0x050 + 5 * Vx; only I
changes. -/
def Obligations.IndexArithmetic : Prop :=
  ∀ (x : Nibble) (s : State),
    exec (.addIVx x) s = .next { s with i := BitVec.ofNat 16 ((s.i.toNat + (s.getV x).toNat) % 65536) } ∧
    exec (.ldFVx x) s = .next { s with i := BitVec.ofNat 16 (0x050 + 5 * (s.getV x).toNat) }

/-- R202 (decision D14), with the free value of log entry 1, whatever the draw counter: `RND` writes the drawn byte
AND kk to Vx, consumes one byte and changes nothing else. -/
def Obligations.RndMasksTheDrawnByte : Prop :=
  ∀ (x : Nibble) (kk : Byte) (s : State), ∃ t, exec (.rndVxKk x kk) s = .next t ∧
    t = { s with v := t.v, rngDraws := s.rngDraws + 1 } ∧ t.getV x = Config.randomByte s.rngDraws &&& kk ∧
    ∀ r, r ≠ x → t.getV r = s.getV r

/-- R250, R251 (opcode numbers by decision D13), before the tick of the cycle: `LD Vx, DT` copies DT into Vx, `LD DT, Vx`
copies Vx into DT, and nothing else changes. -/
def Obligations.TimerIsReadAndWritten : Prop :=
  ∀ (x : Nibble) (s : State),
    (∃ t, exec (.ldVxDt x) s = .next t ∧ t = { s with v := t.v } ∧ t.getV x = s.dt ∧
      ∀ r, r ≠ x → t.getV r = s.getV r) ∧
    exec (.ldDtVx x) s = .next { s with dt := s.getV x }

/-! ### Display -/

/-- R221 to R224 (decisions D2, D9), with the sprite bytes in memory or n = 0: `DRW` inverts exactly the pixels that a
set bit of the sprite covers, with wrapping, sets VF to whether one of them was on, and changes nothing else. -/
def Obligations.DrwXorsTheSpriteAndReportsCollision : Prop :=
  ∀ (x y n : Nibble) (s : State), n = 0#4 ∨ s.i.toNat + n.toNat ≤ 0x1000 →
    ∃ t, exec (.drw x y n) s = .next t ∧ t = { s with v := t.v, disp := t.disp } ∧
      (∀ px < 64, ∀ py < 32, t.disp.pixel px py =
        (s.disp.pixel px py ^^
          spriteCovers (s.getV x) (s.getV y) ((List.range n.toNat).map fun r => s.mem.read (s.i.toNat + r)) px py)) ∧
      (t.getV 0xF#4 = 1#8 ∨ t.getV 0xF#4 = 0#8) ∧
      (t.getV 0xF#4 = 1#8 ↔ ∃ px < 64, ∃ py < 32, s.disp.pixel px py = true ∧ t.disp.pixel px py = false) ∧
      ∀ r, r ≠ 0xF#4 → t.getV r = s.getV r

/-- R224, corner cases (and 95_test_vectors.md L1.3): in a Running engine, the only one that executes (R106), where
neither coordinate is VF and no fault is raised, drawing the same sprite again restores the display, and the
second draw reports a collision exactly when the first turned a pixel on. -/
def Obligations.DrwTwiceRestoresTheDisplay : Prop :=
  ∀ (x y n : Nibble) (s t : State), s.status = .running → x ≠ 0xF#4 → y ≠ 0xF#4 → exec (.drw x y n) s = .next t →
    t.status = .running →
    ∃ u, exec (.drw x y n) t = .next u ∧ u.disp = s.disp ∧
      (u.getV 0xF#4 = 1#8 ↔ ∃ k : Fin 2048, s.disp.get k = false ∧ t.disp.get k = true)

/-! ### Memory -/

/-- R55, R301 (decision D2): `DRW`, `LD B,Vx`, `LD [I],Vx` and `LD Vx,[I]` whose byte range leaves memory fault with
MemoryOutOfRange, recording the first address above 0xFFF, and change nothing else. -/
def Obligations.RangesPastMemoryFault : Prop :=
  ∀ (x y n : Nibble) (s : State),
    (n ≠ 0#4 → 0x1000 < s.i.toNat + n.toNat → exec (.drw x y n) s = .next (s.stoppedWith
      (.memoryOutOfRange (s.pc - 2) (encode (.drw x y n)) (max s.i.toNat 0x1000)))) ∧
    (0x1000 < s.i.toNat + 3 → exec (.ldBVx x) s = .next (s.stoppedWith
      (.memoryOutOfRange (s.pc - 2) (encode (.ldBVx x)) (max s.i.toNat 0x1000)))) ∧
    (0xFFF < s.i.toNat + x.toNat → exec (.ldMemVx x) s = .next (s.stoppedWith
      (.memoryOutOfRange (s.pc - 2) (encode (.ldMemVx x)) (max s.i.toNat 0x1000)))) ∧
    (0xFFF < s.i.toNat + x.toNat → exec (.ldVxMem x) s = .next (s.stoppedWith
      (.memoryOutOfRange (s.pc - 2) (encode (.ldVxMem x)) (max s.i.toNat 0x1000))))

/-- R254 (decisions D2, D13), with I + 2 in memory: `LD B, Vx` stores the hundreds, tens and units of Vx at I, I + 1,
I + 2 and changes no other byte and nothing else. -/
def Obligations.BcdStoresThreeDigits : Prop :=
  ∀ (x : Nibble) (s : State), s.mem.wf = true → s.i.toNat + 2 ≤ 0xFFF →
    ∃ t, exec (.ldBVx x) s = .next t ∧ t = { s with mem := t.mem } ∧
      (t.mem.read s.i.toNat).toNat = (s.getV x).toNat / 100 ∧
      (t.mem.read (s.i.toNat + 1)).toNat = (s.getV x).toNat / 10 % 10 ∧
      (t.mem.read (s.i.toNat + 2)).toNat = (s.getV x).toNat % 10 ∧
      ∀ a, a < s.i.toNat ∨ s.i.toNat + 2 < a → t.mem.read a = s.mem.read a

/-- R255 (decisions D2, D8, D13), with I + x in memory: `LD [I], Vx` stores V0..Vx at I..I + x and changes no other byte
and nothing else, I included. -/
def Obligations.BlockStoreWritesRegistersZeroToX : Prop :=
  ∀ (x : Nibble) (s : State), s.mem.wf = true → s.i.toNat + x.toNat ≤ 0xFFF →
    ∃ t, exec (.ldMemVx x) s = .next t ∧ t = { s with mem := t.mem } ∧
      (∀ r : Nibble, r.toNat ≤ x.toNat → t.mem.read (s.i.toNat + r.toNat) = s.getV r) ∧
      ∀ a, a < s.i.toNat ∨ s.i.toNat + x.toNat < a → t.mem.read a = s.mem.read a

/-- R256 (decisions D2, D8, D13), with I + x in memory: `LD Vx, [I]` loads V0..Vx from I..I + x and changes no other
register and nothing else, I included. -/
def Obligations.BlockLoadReadsRegistersZeroToX : Prop :=
  ∀ (x : Nibble) (s : State), s.i.toNat + x.toNat ≤ 0xFFF →
    ∃ t, exec (.ldVxMem x) s = .next t ∧ t = { s with v := t.v } ∧
      (∀ r : Nibble, r.toNat ≤ x.toNat → t.getV r = s.mem.read (s.i.toNat + r.toNat)) ∧
      ∀ r : Nibble, x.toNat < r.toNat → t.getV r = s.getV r

/-- R61, R53, R347 (decisions D2, D15): a store by `LD [I],Vx` or `LD B,Vx` is seen by the next fetch, whatever its
address `a`: each byte of the word, the one at `a` in bits 15:8 and the one at a + 1 in bits 7:0, is the byte stored there,
or, where only the other one or none of them was stored to, the byte that stood there before. -/
def Obligations.StoredBytesAreFetchedAtOnce : Prop :=
  ∀ (x : Nibble) (s : State), s.mem.wf = true →
    (s.i.toNat + x.toNat ≤ 0xFFF → ∃ t, exec (.ldMemVx x) s = .next t ∧ ∀ a ≤ 0xFFE,
      ({ t with pc := BitVec.ofNat 16 a } : State).fetch =
        some (byteAfterStore s.mem s.i.toNat ((List.range (x.toNat + 1)).map fun r => s.getV (BitVec.ofNat 4 r)) a ++
          byteAfterStore s.mem s.i.toNat ((List.range (x.toNat + 1)).map fun r => s.getV (BitVec.ofNat 4 r)) (a + 1))) ∧
    (s.i.toNat + 2 ≤ 0xFFF → ∃ t, exec (.ldBVx x) s = .next t ∧ ∀ a ≤ 0xFFE,
      ({ t with pc := BitVec.ofNat 16 a } : State).fetch =
        some (byteAfterStore s.mem s.i.toNat
            ([(s.getV x).toNat / 100, (s.getV x).toNat / 10 % 10, (s.getV x).toNat % 10].map (BitVec.ofNat 8)) a ++
          byteAfterStore s.mem s.i.toNat
            ([(s.getV x).toNat / 100, (s.getV x).toNat / 10 % 10, (s.getV x).toNat % 10].map (BitVec.ofNat 8)) (a + 1)))

/-! ### Key wait -/

/-- R280 (decisions D13, D17): with k the lowest pressed key of 0..14, `LD Vx, K` writes k to Vx and goes on; with none
of them pressed, whatever key 15 does, it takes PC back by 2. Nothing else changes. -/
def Obligations.KeyWaitTakesTheLowestKeyOrRewinds : Prop :=
  ∀ (x : Nibble) (s : State),
    (∀ k : Fin 16, k.val < 15 → s.keys.get k = true → (∀ j : Fin 16, j.val < k.val → s.keys.get j = false) →
      ∃ t, exec (.ldVxK x) s = .next t ∧ t = { s with v := t.v } ∧ (t.getV x).toNat = k.val ∧
        ∀ r, r ≠ x → t.getV r = s.getV r) ∧
    ((∀ k : Fin 16, k.val < 15 → s.keys.get k = false) → exec (.ldVxK x) s = .next { s with pc := s.pc - 2 })

/-! ### Reset and the host port -/

/-- R37 (decision D11 but for PC and the glyph table): the reset values of every piece of the spec's state but memory. -/
def Obligations.ResetValues : Prop :=
  (∀ r, State.reset.getV r = 0#8) ∧ State.reset.i = 0#16 ∧ State.reset.pc = 0x0200#16 ∧ State.reset.sp = 0#8 ∧
  (∀ j : Fin 16, State.reset.stack.get j = 0#16) ∧ State.reset.dt = 0#8 ∧
  (∀ k : Fin 2048, State.reset.disp.get k = false) ∧ (∀ k : Fin 16, State.reset.keys.get k = false) ∧
  State.reset.status = .running

/-- R51, R342 (digits 1..F by decision D13, the zeros by D11): memory at reset is the glyph table at 0x050..0x09F, sixteen
glyphs of five bytes, and 0x00 elsewhere. -/
def Obligations.ResetMemoryIsTheGlyphTable : Prop :=
  (List.range 16).map (fun d => (List.range 5).map fun r => (State.reset.mem.read (0x050 + 5 * d + r)).toNat) =
    [[0xF0, 0x90, 0x90, 0x90, 0xF0], [0x20, 0x60, 0x20, 0x20, 0x70], [0xF0, 0x10, 0xF0, 0x80, 0xF0],
     [0xF0, 0x10, 0xF0, 0x10, 0xF0], [0x90, 0x90, 0xF0, 0x10, 0x10], [0xF0, 0x80, 0xF0, 0x10, 0xF0],
     [0xF0, 0x80, 0xF0, 0x90, 0xF0], [0xF0, 0x10, 0x20, 0x40, 0x40], [0xF0, 0x90, 0xF0, 0x90, 0xF0],
     [0xF0, 0x90, 0xF0, 0x10, 0xF0], [0xF0, 0x90, 0xF0, 0x90, 0x90], [0xE0, 0x90, 0xE0, 0x90, 0xE0],
     [0xF0, 0x80, 0x80, 0x80, 0xF0], [0xE0, 0x90, 0x90, 0x90, 0xE0], [0xF0, 0x80, 0xF0, 0x80, 0xF0],
     [0xF0, 0x80, 0xF0, 0x80, 0x80]] ∧
  ∀ a, a < 0x1000 → a < 0x050 ∨ 0x09F < a → State.reset.mem.read a = 0#8

/-- R343 (decision D19), through the host port: the one load of an image of at most 3584 bytes puts byte j at 0x200 + j
and changes nothing else; a longer image writes nothing and faults with RomTooLarge. -/
def Obligations.LoadPlacesTheImageOrFaults : Prop :=
  ∀ (bytes : List Byte) (s : State), s.mem.wf = true →
    (bytes.length ≤ 3584 → ∃ t, hostStep (.load bytes) ⟨s, false⟩ = .next ⟨t, true⟩ ∧ t = { s with mem := t.mem } ∧
      (∀ j (h : j < bytes.length), t.mem.read (0x200 + j) = bytes[j]) ∧
      ∀ a, a < 0x200 ∨ 0x200 + bytes.length ≤ a → t.mem.read a = s.mem.read a) ∧
    (3584 < bytes.length → hostStep (.load bytes) ⟨s, false⟩ =
      .next ⟨{ s with status := .faulted (.romTooLarge bytes.length) }, true⟩)

/-- R344, D19, S14: a cycle before the load and a second load are refused; after the load a cycle is one step. -/
def Obligations.HostLoadsOnceBeforeTheFirstCycle : Prop :=
  ∀ (s t : State) (bytes : List Byte),
    hostStep .cycle ⟨s, false⟩ = .refused .cycleBeforeLoad ∧ hostStep (.load bytes) ⟨s, true⟩ = .refused .secondLoad ∧
    (step s = .next t → hostStep .cycle ⟨s, true⟩ = .next ⟨t, true⟩)

/-- R240, R322 (decision D18): a key event for k in 0..15 writes KEY[k] alone, of two events for one key in a row the last
one wins, in each of the four orders, and one with k above 15 is refused. That this is so in a Faulted engine too is the
model's reading of log entry 13 (DEDUCED), not a rule of the spec; of a Running engine it is R240 and R322. -/
def Obligations.KeyEventsWriteOneKey : Prop :=
  ∀ (s : State) (loaded : Bool),
    (∀ k : Fin 16, ∃ d u, hostStep (.keyDown k.val) ⟨s, loaded⟩ = .next ⟨d, loaded⟩ ∧
      hostStep (.keyUp k.val) ⟨s, loaded⟩ = .next ⟨u, loaded⟩ ∧
      d = { s with keys := d.keys } ∧ u = { s with keys := u.keys } ∧
      d.keys.get k = true ∧ u.keys.get k = false ∧
      (∀ j : Fin 16, j ≠ k → d.keys.get j = s.keys.get j ∧ u.keys.get j = s.keys.get j) ∧
      (∀ e ∈ [d, u], hostStep (.keyDown k.val) ⟨e, loaded⟩ = .next ⟨d, loaded⟩ ∧
        hostStep (.keyUp k.val) ⟨e, loaded⟩ = .next ⟨u, loaded⟩)) ∧
    (∀ k : Nat, 15 < k → hostStep (.keyDown k) ⟨s, loaded⟩ = .refused (.keyNumberOutOfRange k) ∧
      hostStep (.keyUp k) ⟨s, loaded⟩ = .refused (.keyNumberOutOfRange k))

/-- R282 (the spec's "derived: from rule R280"), whatever key 15 does: an engine at `LD Vx, K` with none of the keys 0..14
pressed stays there through every sequence of cycles and key events in which none of them is pressed; only key 15 changes,
and the delay timer, once for each cycle (R104). -/
def Obligations.KeyWaitNeverEndsWhateverKeyFifteenDoes : Prop :=
  ∀ (es : List HostEvent) (s : State) (x : Nibble), s.status = .running → s.fetch = some (encode (.ldVxK x)) →
    (∀ k : Fin 16, k.val < 15 → s.keys.get k = false) → (∀ e ∈ es, e.pressesOnlyFifteen) →
    ∃ t, hostRun es ⟨s, true⟩ = .next ⟨t, true⟩ ∧
      t = { s with keys := t.keys, dt := BitVec.ofNat 8 (s.dt.toNat - es.count .cycle) } ∧
      ∀ k : Fin 16, k.val < 15 → t.keys.get k = false
end

