-- ==== Sys2Proof/Laws/Display.lean ====
section
/-! SUPPORT. Laws/Display.lean: what the display operations do to each pixel. -/

namespace Sys2Proof.Machine

/-- Two coordinates name one cell exactly when they agree modulo 64 and 32 (R221). -/
theorem pixelIndex_eq_iff {x y x' y' : Nat} :
    pixelIndex x y = pixelIndex x' y' ↔ x % 64 = x' % 64 ∧ y % 32 = y' % 32 := by
  simp only [pixelIndex, Fin.mk.injEq]
  omega

/-- Every pixel of a cleared display is off (R220). -/
@[simp] theorem Display.pixel_cleared (x y : Nat) : Display.cleared.pixel x y = false := by
  simp [Display.pixel, Display.cleared, Vector.get_eq_getElem]

/-- Two displays with the same pixels are one display. -/
theorem Display.ext_pixel {d e : Display} (h : ∀ x y, x < 64 → y < 32 → d.pixel x y = e.pixel x y) : d = e := by
  refine Vector.ext fun k hk => ?_
  have hx := h (k % 64) (k / 64) (by omega) (by omega)
  have hidx : (pixelIndex (k % 64) (k / 64)).val = k := by simp only [pixelIndex]; omega
  simpa [Display.pixel, Vector.get_eq_getElem, hidx] using hx

/-- A flip inverts its pixel and leaves every other one (R221). -/
theorem Canvas.pixel_flip (c : Canvas) (x y px py : Nat) :
    (c.flip x y).1.pixel px py
      = if px % 64 = x % 64 ∧ py % 32 = y % 32 then !c.1.pixel px py else c.1.pixel px py := by
  by_cases h : px % 64 = x % 64 ∧ py % 32 = y % 32
  · have hidx : pixelIndex px py = pixelIndex x y := pixelIndex_eq_iff.mpr h
    simp [Canvas.flip, Display.pixel, Vector.get_eq_getElem, h, hidx]
  · have hidx : pixelIndex x y ≠ pixelIndex px py :=
      fun e => h ((pixelIndex_eq_iff.mp e).imp Eq.symm Eq.symm)
    have hval : (pixelIndex x y).val ≠ (pixelIndex px py).val := fun e => hidx (Fin.ext e)
    simp [Canvas.flip, Display.pixel, Vector.get_eq_getElem, hval, h]

/-- A flip is a collision exactly when its pixel was on (R223). -/
@[simp] theorem Canvas.collided_flip (c : Canvas) (x y : Nat) : (c.flip x y).2 = (c.2 || c.1.pixel x y) := rfl

/-- A clear sprite bit changes nothing (R221). -/
theorem Canvas.drawBit_clear {row : Byte} {x0 y col : Nat} {c : Canvas} (h : row.getLsbD (7 - col) = false) :
    Canvas.drawBit row x0 y c col = c := by simp [Canvas.drawBit, h]

/-- A set sprite bit flips its pixel (R221). -/
theorem Canvas.drawBit_set {row : Byte} {x0 y col : Nat} {c : Canvas} (h : row.getLsbD (7 - col) = true) :
    Canvas.drawBit row x0 y c col = c.flip (x0 + col) y := by simp [Canvas.drawBit, h]

/-- The first k columns of a row, on each pixel. -/
theorem Canvas.pixel_drawBits (c : Canvas) (row : Byte) (x0 y px py k : Nat) (hk : k ≤ 8) :
    ((List.range k).foldl (Canvas.drawBit row x0 y) c).1.pixel px py
      = (c.1.pixel px py ^^ (decide (py % 32 = y % 32) && decide ((px + 64 - x0 % 64) % 64 < k)
          && row.getLsbD (7 - (px + 64 - x0 % 64) % 64))) := by
  induction k with
  | zero => simp
  | succ k ih =>
    have ih := ih (by omega)
    rw [List.range_succ, List.foldl_append, List.foldl_cons, List.foldl_nil]
    cases hb : row.getLsbD (7 - k) with
    | false =>
      rw [Canvas.drawBit_clear hb, ih]
      by_cases hc : (px + 64 - x0 % 64) % 64 = k
      · simp [hc, hb]
      · simp [show (px + 64 - x0 % 64) % 64 < k + 1 ↔ (px + 64 - x0 % 64) % 64 < k by omega]
    | true =>
      rw [Canvas.drawBit_set hb, Canvas.pixel_flip, ih]
      by_cases hc : (px + 64 - x0 % 64) % 64 = k
      · by_cases hy : py % 32 = y % 32
        · rw [if_pos ⟨by omega, hy⟩]; simp [hc, hb, hy]
        · rw [if_neg (by omega)]; simp [hy]
      · rw [if_neg (by omega)]
        simp [show (px + 64 - x0 % 64) % 64 < k + 1 ↔ (px + 64 - x0 % 64) % 64 < k by omega]

/-- A sprite row on each pixel: it is inverted exactly when it is in the row's display row and one of the eight columns
from x0 on, with wrapping, and the bit of that column is set (R221, R222). -/
theorem Canvas.pixel_drawRow (c : Canvas) (row : Byte) (x0 y px py : Nat) :
    (c.drawRow row x0 y).1.pixel px py
      = (c.1.pixel px py ^^ (decide (py % 32 = y % 32) && decide ((px + 64 - x0 % 64) % 64 < 8)
          && row.getLsbD (7 - (px + 64 - x0 % 64) % 64))) :=
  Canvas.pixel_drawBits c row x0 y px py 8 (Nat.le_refl 8)

/-- The collisions of the first k columns of a row. -/
theorem Canvas.collided_drawBits (c : Canvas) (row : Byte) (x0 y k : Nat) (hk : k ≤ 8) :
    ((List.range k).foldl (Canvas.drawBit row x0 y) c).2
      = (c.2 || (List.range k).any fun col => row.getLsbD (7 - col) && c.1.pixel (x0 + col) y) := by
  induction k with
  | zero => simp
  | succ k ih =>
    have ih := ih (by omega)
    rw [List.range_succ, List.foldl_append, List.foldl_cons, List.foldl_nil, List.any_append]
    cases hb : row.getLsbD (7 - k) with
    | false => rw [Canvas.drawBit_clear hb, ih]; simp [hb]
    | true =>
      rw [Canvas.drawBit_set hb, Canvas.collided_flip, ih, Canvas.pixel_drawBits c row x0 y (x0 + k) y k (by omega)]
      simp [hb, show ¬ (x0 + k + 64 - x0 % 64) % 64 < k by omega, Bool.or_assoc]

/-- A sprite row collides exactly when one of its set bits is over a pixel that was on before the row (R223): no two
bits of a row reach the same pixel. -/
theorem Canvas.collided_drawRow (c : Canvas) (row : Byte) (x0 y : Nat) :
    (c.drawRow row x0 y).2
      = (c.2 || (List.range 8).any fun col => row.getLsbD (7 - col) && c.1.pixel (x0 + col) y) :=
  Canvas.collided_drawBits c row x0 y 8 (Nat.le_refl 8)

/-- A sprite of no rows draws nothing (D9). -/
@[simp] theorem Display.draw_nil (d : Display) (x0 y0 : Byte) : d.draw x0 y0 [] = (d, false) := rfl

end Sys2Proof.Machine
end

