-- ==== Sys2Proof/Laws/Encoding.lean ====
section
/-! SUPPORT. Laws/Encoding.lean: the fields of a word, taken apart and put together (R72). -/

namespace Sys2Proof

/-- The value of a word of the layout op, x, y, n. -/
theorem toNat_packXYN (op x y n : Nibble) :
    (packXYN op x y n).toNat = op.toNat * 4096 + x.toNat * 256 + y.toNat * 16 + n.toNat := by
  have h1 := op.isLt; have h2 := x.isLt; have h3 := y.isLt; have h4 := n.isLt
  simp only [packXYN, BitVec.toNat_append, Nat.shiftLeft_eq]
  rw [← Nat.shiftLeft_eq, ← Nat.shiftLeft_eq, ← Nat.shiftLeft_eq, ← Nat.shiftLeft_add_eq_or_of_lt h2,
    ← Nat.shiftLeft_add_eq_or_of_lt h3, ← Nat.shiftLeft_add_eq_or_of_lt h4]
  simp only [Nat.shiftLeft_eq]
  omega

/-- The value of a word of the layout op, x, kk. -/
theorem toNat_packXKk (op x : Nibble) (kk : Byte) :
    (packXKk op x kk).toNat = op.toNat * 4096 + x.toNat * 256 + kk.toNat := by
  have h1 := op.isLt; have h2 := x.isLt; have h3 := kk.isLt
  simp only [packXKk, BitVec.toNat_append]
  rw [← Nat.shiftLeft_add_eq_or_of_lt h2, ← Nat.shiftLeft_add_eq_or_of_lt h3]
  simp only [Nat.shiftLeft_eq]
  omega

/-- The value of a word of the layout op, nnn. -/
theorem toNat_packNnn (op : Nibble) (nnn : Addr) : (packNnn op nnn).toNat = op.toNat * 4096 + nnn.toNat := by
  have h2 := nnn.isLt
  simp only [packNnn, BitVec.toNat_append]
  rw [← Nat.shiftLeft_add_eq_or_of_lt h2]
  simp only [Nat.shiftLeft_eq]

/-- The value of a field of a word. -/
theorem toNat_field (w : Word) (lo len : Nat) : (w.extractLsb' lo len).toNat = w.toNat / 2 ^ lo % 2 ^ len := by
  simp [BitVec.extractLsb', Nat.shiftRight_eq_div_pow]

@[simp] theorem fieldOp_packXYN (op x y n : Nibble) : fieldOp (packXYN op x y n) = op := by
  apply BitVec.eq_of_toNat_eq; rw [fieldOp, toNat_field, toNat_packXYN]; omega
@[simp] theorem fieldX_packXYN (op x y n : Nibble) : fieldX (packXYN op x y n) = x := by
  apply BitVec.eq_of_toNat_eq; rw [fieldX, toNat_field, toNat_packXYN]; omega
@[simp] theorem fieldY_packXYN (op x y n : Nibble) : fieldY (packXYN op x y n) = y := by
  apply BitVec.eq_of_toNat_eq; rw [fieldY, toNat_field, toNat_packXYN]; omega
@[simp] theorem fieldN_packXYN (op x y n : Nibble) : fieldN (packXYN op x y n) = n := by
  apply BitVec.eq_of_toNat_eq; rw [fieldN, toNat_field, toNat_packXYN]; omega

@[simp] theorem fieldOp_packXKk (op x : Nibble) (kk : Byte) : fieldOp (packXKk op x kk) = op := by
  apply BitVec.eq_of_toNat_eq; rw [fieldOp, toNat_field, toNat_packXKk]; omega
@[simp] theorem fieldX_packXKk (op x : Nibble) (kk : Byte) : fieldX (packXKk op x kk) = x := by
  apply BitVec.eq_of_toNat_eq; rw [fieldX, toNat_field, toNat_packXKk]; omega
@[simp] theorem fieldKk_packXKk (op x : Nibble) (kk : Byte) : fieldKk (packXKk op x kk) = kk := by
  apply BitVec.eq_of_toNat_eq; rw [fieldKk, toNat_field, toNat_packXKk]; omega

@[simp] theorem fieldOp_packNnn (op : Nibble) (nnn : Addr) : fieldOp (packNnn op nnn) = op := by
  apply BitVec.eq_of_toNat_eq; rw [fieldOp, toNat_field, toNat_packNnn]; omega
@[simp] theorem fieldNnn_packNnn (op : Nibble) (nnn : Addr) : fieldNnn (packNnn op nnn) = nnn := by
  apply BitVec.eq_of_toNat_eq; rw [fieldNnn, toNat_field, toNat_packNnn]; omega
/-- The low byte of a word is the low byte of its nnn field. -/
@[simp] theorem fieldKk_packNnn (op : Nibble) (nnn : Addr) : fieldKk (packNnn op nnn) = nnn.extractLsb' 0 8 := by
  apply BitVec.eq_of_toNat_eq
  rw [fieldKk, toNat_field, toNat_packNnn]
  simp only [BitVec.extractLsb', BitVec.toNat_ofNat, Nat.shiftRight_eq_div_pow]
  omega

/-- A word is its four fields op, x, y, n. -/
theorem packXYN_fields (w : Word) : packXYN (fieldOp w) (fieldX w) (fieldY w) (fieldN w) = w := by
  apply BitVec.eq_of_toNat_eq
  have := w.isLt
  rw [toNat_packXYN, fieldOp, fieldX, fieldY, fieldN, toNat_field, toNat_field, toNat_field, toNat_field]
  omega

/-- A word is its three fields op, x, kk. -/
theorem packXKk_fields (w : Word) : packXKk (fieldOp w) (fieldX w) (fieldKk w) = w := by
  apply BitVec.eq_of_toNat_eq
  have := w.isLt
  rw [toNat_packXKk, fieldOp, fieldX, fieldKk, toNat_field, toNat_field, toNat_field]
  omega

/-- A word is its two fields op, nnn. -/
theorem packNnn_fields (w : Word) : packNnn (fieldOp w) (fieldNnn w) = w := by
  apply BitVec.eq_of_toNat_eq
  have := w.isLt
  rw [toNat_packNnn, fieldOp, fieldNnn, toNat_field, toNat_field]
  omega

/-- The two stored bytes of a word make the word again (R52). -/
@[simp] theorem wordOfBytes_hiByte_loByte (w : Word) : wordOfBytes (hiByte w) (loByte w) = w := by
  apply BitVec.eq_of_toNat_eq
  have := w.isLt
  have hlo : (loByte w).toNat < 2 ^ 8 := (loByte w).isLt
  simp only [wordOfBytes, BitVec.toNat_append]
  rw [← Nat.shiftLeft_add_eq_or_of_lt hlo, Nat.shiftLeft_eq, hiByte, loByte, toNat_field, toNat_field]
  omega

end Sys2Proof
end

