-- ==== Sys2Proof/Laws/Memory.lean ====
section
/-! SUPPORT. Laws/Memory.lean: what the memory operations do, and that they keep the canonical form. -/

namespace Sys2Proof.Machine

/-- Below the first address that can be listed, memory reads as at reset. -/
theorem Memory.read_below {lo a : Nat} {m : Memory} (h : m.wfFrom lo = true) (ha : a < lo) :
    m.read a = Memory.resetByte a := by
  induction m generalizing lo with
  | nil => rfl
  | cons cell m ih =>
    obtain ⟨k, b⟩ := cell
    simp only [Memory.wfFrom, Bool.and_eq_true, decide_eq_true_eq] at h
    obtain ⟨⟨⟨hlo, -⟩, -⟩, htail⟩ := h
    simp only [Memory.read, if_neg (by omega : ¬ a = k)]
    exact ih htail (by omega)

/-- The canonical form from an address on holds from every lower address on. -/
theorem Memory.wfFrom_mono {lo lo' : Nat} {m : Memory} (h : m.wfFrom lo = true) (hle : lo' ≤ lo) :
    m.wfFrom lo' = true := by
  cases m with
  | nil => rfl
  | cons cell m =>
    simp only [Memory.wfFrom, Bool.and_eq_true, decide_eq_true_eq] at h ⊢
    exact ⟨⟨⟨hle.trans h.1.1.1, h.1.1.2⟩, h.1.2⟩, h.2⟩

/-- Listing a cell in front of a memory that starts above it keeps the canonical form. -/
theorem Memory.listCell_wfFrom {a lo : Nat} {b : Byte} {m : Memory} (h : m.wfFrom (a + 1) = true) (hlo : lo ≤ a)
    (ha : a < Config.memSize) : (Memory.listCell a b m).wfFrom lo = true := by
  unfold Memory.listCell
  split
  · exact Memory.wfFrom_mono h (by omega)
  · rename_i hb; simp [Memory.wfFrom, hlo, ha, hb, h]

/-- What a memory with a cell listed in front of it reads as. -/
theorem Memory.read_listCell {a : Nat} {b : Byte} {m : Memory} (h : m.wfFrom (a + 1) = true) (x : Nat) :
    (Memory.listCell a b m).read x = if x = a then b else m.read x := by
  unfold Memory.listCell
  split
  · rename_i hb
    by_cases hx : x = a
    · subst hx; rw [Memory.read_below h (by omega), if_pos rfl, hb]
    · rw [if_neg hx]
  · rfl

/-- A write keeps the canonical form. -/
theorem Memory.write_wfFrom {lo a : Nat} {b : Byte} {m : Memory} (h : m.wfFrom lo = true) (hlo : lo ≤ a)
    (ha : a < Config.memSize) : (m.write a b).wfFrom lo = true := by
  induction m generalizing lo with
  | nil => exact Memory.listCell_wfFrom rfl hlo ha
  | cons cell m ih =>
    obtain ⟨k, c⟩ := cell
    have hcell := h
    simp only [Memory.wfFrom, Bool.and_eq_true, decide_eq_true_eq] at h
    obtain ⟨⟨⟨hk, hk'⟩, hc⟩, htail⟩ := h
    unfold Memory.write
    split
    · refine Memory.listCell_wfFrom ?_ hlo ha
      simp [Memory.wfFrom, hk', hc, htail]; omega
    · split
      · subst a; exact Memory.listCell_wfFrom htail hlo ha
      · simp [Memory.wfFrom, hk, hk', hc, ih htail (by omega)]

/-- A read after a write: the addressed byte is the written one, every other byte is as before (R57). -/
theorem Memory.read_write_from {lo a : Nat} {b : Byte} {m : Memory} (h : m.wfFrom lo = true) (x : Nat) :
    (m.write a b).read x = if x = a then b else m.read x := by
  induction m generalizing lo with
  | nil => exact Memory.read_listCell rfl x
  | cons cell m ih =>
    obtain ⟨k, c⟩ := cell
    simp only [Memory.wfFrom, Bool.and_eq_true, decide_eq_true_eq] at h
    obtain ⟨⟨⟨hk, hk'⟩, hc⟩, htail⟩ := h
    unfold Memory.write
    split
    · rw [Memory.read_listCell]
      simp [Memory.wfFrom, hk', hc, htail]; omega
    · split
      · subst a
        rw [Memory.read_listCell htail]
        by_cases hx : x = k <;> simp [Memory.read, hx]
      · simp only [Memory.read, ih htail]
        by_cases hx : x = k
        · subst hx; rw [if_pos rfl, if_neg (by omega), if_pos rfl]
        · simp [hx]

/-- A write inside memory keeps the canonical form. -/
theorem Memory.write_wf {a : Nat} {b : Byte} {m : Memory} (h : m.wf = true) (ha : a < Config.memSize) :
    (m.write a b).wf = true :=
  Memory.write_wfFrom h (Nat.zero_le a) ha

/-- A read after a write (R57). -/
theorem Memory.read_write {a : Nat} {b : Byte} {m : Memory} (h : m.wf = true) (x : Nat) :
    (m.write a b).read x = if x = a then b else m.read x :=
  Memory.read_write_from h x

/-- A block store inside memory keeps the canonical form. -/
theorem Memory.writeBlock_wf {m : Memory} {base : Nat} {bs : List Byte} (h : m.wf = true)
    (hb : rangeInMemory base bs.length) : (m.writeBlock base bs).wf = true := by
  induction bs generalizing m base with
  | nil => exact h
  | cons b bs ih =>
    have hb : base + (bs.length + 1) ≤ 4096 := by simpa [rangeInMemory] using hb
    exact ih (Memory.write_wf h (by simp; omega)) (Or.inr (by simp; omega))

/-- A read after a block store: byte j of the block at base + j, every other byte as before (R53, R57). -/
theorem Memory.read_writeBlock {m : Memory} {base : Nat} {bs : List Byte} (h : m.wf = true)
    (hb : rangeInMemory base bs.length) (x : Nat) :
    (m.writeBlock base bs).read x
      = if h' : base ≤ x ∧ x - base < bs.length then bs[x - base]'h'.2 else m.read x := by
  induction bs generalizing m base with
  | nil => simp [Memory.writeBlock]
  | cons b bs ih =>
    have hb : base + (bs.length + 1) ≤ 4096 := by simpa [rangeInMemory] using hb
    have hw : (m.write base b).wf = true := Memory.write_wf h (by simp; omega)
    rw [Memory.writeBlock, ih hw (Or.inr (by simp; omega)), Memory.read_write h]
    by_cases hlt : x < base
    · rw [dif_neg (by omega), dif_neg (by omega), if_neg (by omega)]
    · by_cases heq : x = base
      · subst heq; rw [dif_neg (by omega), if_pos rfl, dif_pos (by simp)]; simp
      · by_cases hin : x - base < bs.length + 1
        · have hsub : x - base = x - (base + 1) + 1 := by omega
          rw [dif_pos (by omega), dif_pos (by simp; omega)]
          simp [hsub]
        · rw [dif_neg (by omega), dif_neg (by simp; omega), if_neg heq]

/-- A block read has as many bytes as were asked for. -/
@[simp] theorem Memory.length_readBlock (m : Memory) (base n : Nat) : (m.readBlock base n).length = n := by
  simp [Memory.readBlock]

/-- Byte r of a block read (R53). -/
@[simp] theorem Memory.getElem_readBlock (m : Memory) (base n r : Nat) (h : r < (m.readBlock base n).length) :
    (m.readBlock base n)[r] = m.read (base + r) := by
  simp [Memory.readBlock]

/-- The fetch answers a word exactly where both of its bytes exist (R101). -/
theorem Memory.fetch16_eq_some_iff {m : Memory} {a : Nat} {w : Word} :
    m.fetch16 a = some w ↔ a ≤ 0xFFE ∧ w = wordOfBytes (m.read a) (m.read (a + 1)) := by
  unfold Memory.fetch16
  split
  · rename_i h
    have : a ≤ 0xFFE := by simp at h; omega
    simp [this, eq_comm]
  · rename_i h
    have : ¬ a ≤ 0xFFE := by simp at h; omega
    simp [this]

/-- No fetch above 0xFFE (R101). -/
theorem Memory.fetch16_eq_none_iff {m : Memory} {a : Nat} : m.fetch16 a = none ↔ 0xFFE < a := by
  unfold Memory.fetch16
  split
  · rename_i h; simp at h ⊢; omega
  · rename_i h; simp at h ⊢; omega

end Sys2Proof.Machine
end

