-- ==== Sys2Proof/Laws/State.lean ====
section
/-! SUPPORT. Laws/State.lean: what each update of the state does to each field, so that no proof unfolds a record
update. -/

namespace Sys2Proof.Machine

variable (s : State)

/-! ### `setV` -/

@[simp] theorem State.setV_v (x : Nibble) (b : Byte) : (s.setV x b).v = s.v.set x.toNat b x.isLt := rfl
@[simp] theorem State.setV_i (x : Nibble) (b : Byte) : (s.setV x b).i = s.i := rfl
@[simp] theorem State.setV_pc (x : Nibble) (b : Byte) : (s.setV x b).pc = s.pc := rfl
@[simp] theorem State.setV_sp (x : Nibble) (b : Byte) : (s.setV x b).sp = s.sp := rfl
@[simp] theorem State.setV_stack (x : Nibble) (b : Byte) : (s.setV x b).stack = s.stack := rfl
@[simp] theorem State.setV_dt (x : Nibble) (b : Byte) : (s.setV x b).dt = s.dt := rfl
@[simp] theorem State.setV_mem (x : Nibble) (b : Byte) : (s.setV x b).mem = s.mem := rfl
@[simp] theorem State.setV_disp (x : Nibble) (b : Byte) : (s.setV x b).disp = s.disp := rfl
@[simp] theorem State.setV_keys (x : Nibble) (b : Byte) : (s.setV x b).keys = s.keys := rfl
@[simp] theorem State.setV_status (x : Nibble) (b : Byte) : (s.setV x b).status = s.status := rfl
@[simp] theorem State.setV_rngDraws (x : Nibble) (b : Byte) : (s.setV x b).rngDraws = s.rngDraws := rfl

/-! ### `setResultAndFlag` -/

@[simp] theorem State.setResultAndFlag_v (x : Nibble) (r f : Byte) : (s.setResultAndFlag x r f).v = (s.v.set x.toNat r x.isLt).set flagReg.toNat f flagReg.isLt := rfl
@[simp] theorem State.setResultAndFlag_i (x : Nibble) (r f : Byte) : (s.setResultAndFlag x r f).i = s.i := rfl
@[simp] theorem State.setResultAndFlag_pc (x : Nibble) (r f : Byte) : (s.setResultAndFlag x r f).pc = s.pc := rfl
@[simp] theorem State.setResultAndFlag_sp (x : Nibble) (r f : Byte) : (s.setResultAndFlag x r f).sp = s.sp := rfl
@[simp] theorem State.setResultAndFlag_stack (x : Nibble) (r f : Byte) : (s.setResultAndFlag x r f).stack = s.stack := rfl
@[simp] theorem State.setResultAndFlag_dt (x : Nibble) (r f : Byte) : (s.setResultAndFlag x r f).dt = s.dt := rfl
@[simp] theorem State.setResultAndFlag_mem (x : Nibble) (r f : Byte) : (s.setResultAndFlag x r f).mem = s.mem := rfl
@[simp] theorem State.setResultAndFlag_disp (x : Nibble) (r f : Byte) : (s.setResultAndFlag x r f).disp = s.disp := rfl
@[simp] theorem State.setResultAndFlag_keys (x : Nibble) (r f : Byte) : (s.setResultAndFlag x r f).keys = s.keys := rfl
@[simp] theorem State.setResultAndFlag_status (x : Nibble) (r f : Byte) : (s.setResultAndFlag x r f).status = s.status := rfl
@[simp] theorem State.setResultAndFlag_rngDraws (x : Nibble) (r f : Byte) : (s.setResultAndFlag x r f).rngDraws = s.rngDraws := rfl

/-! ### `advance` -/

@[simp] theorem State.advance_v : (s.advance).v = s.v := rfl
@[simp] theorem State.advance_i : (s.advance).i = s.i := rfl
@[simp] theorem State.advance_pc : (s.advance).pc = s.pc + 2 := rfl
@[simp] theorem State.advance_sp : (s.advance).sp = s.sp := rfl
@[simp] theorem State.advance_stack : (s.advance).stack = s.stack := rfl
@[simp] theorem State.advance_dt : (s.advance).dt = s.dt := rfl
@[simp] theorem State.advance_mem : (s.advance).mem = s.mem := rfl
@[simp] theorem State.advance_disp : (s.advance).disp = s.disp := rfl
@[simp] theorem State.advance_keys : (s.advance).keys = s.keys := rfl
@[simp] theorem State.advance_status : (s.advance).status = s.status := rfl
@[simp] theorem State.advance_rngDraws : (s.advance).rngDraws = s.rngDraws := rfl

/-! ### `enterFault` -/

@[simp] theorem State.enterFault_v (f : FatalFault) : (s.enterFault f).v = s.v := rfl
@[simp] theorem State.enterFault_i (f : FatalFault) : (s.enterFault f).i = s.i := rfl
@[simp] theorem State.enterFault_pc (f : FatalFault) : (s.enterFault f).pc = s.pc := rfl
@[simp] theorem State.enterFault_sp (f : FatalFault) : (s.enterFault f).sp = s.sp := rfl
@[simp] theorem State.enterFault_stack (f : FatalFault) : (s.enterFault f).stack = s.stack := rfl
@[simp] theorem State.enterFault_dt (f : FatalFault) : (s.enterFault f).dt = s.dt := rfl
@[simp] theorem State.enterFault_mem (f : FatalFault) : (s.enterFault f).mem = s.mem := rfl
@[simp] theorem State.enterFault_disp (f : FatalFault) : (s.enterFault f).disp = s.disp := rfl
@[simp] theorem State.enterFault_keys (f : FatalFault) : (s.enterFault f).keys = s.keys := rfl
@[simp] theorem State.enterFault_status (f : FatalFault) : (s.enterFault f).status = .faulted f := rfl
@[simp] theorem State.enterFault_rngDraws (f : FatalFault) : (s.enterFault f).rngDraws = s.rngDraws := rfl

/-! ### `tick` -/

@[simp] theorem State.tick_v : (s.tick).v = s.v := rfl
@[simp] theorem State.tick_i : (s.tick).i = s.i := rfl
@[simp] theorem State.tick_pc : (s.tick).pc = s.pc := rfl
@[simp] theorem State.tick_sp : (s.tick).sp = s.sp := rfl
@[simp] theorem State.tick_stack : (s.tick).stack = s.stack := rfl
@[simp] theorem State.tick_dt : (s.tick).dt = countDown s.dt := rfl
@[simp] theorem State.tick_mem : (s.tick).mem = s.mem := rfl
@[simp] theorem State.tick_disp : (s.tick).disp = s.disp := rfl
@[simp] theorem State.tick_keys : (s.tick).keys = s.keys := rfl
@[simp] theorem State.tick_status : (s.tick).status = s.status := rfl
@[simp] theorem State.tick_rngDraws : (s.tick).rngDraws = s.rngDraws := rfl

/-! ### `push` -/

@[simp] theorem State.push_v (h : s.sp.toNat < 16) : (s.push h).v = s.v := rfl
@[simp] theorem State.push_i (h : s.sp.toNat < 16) : (s.push h).i = s.i := rfl
@[simp] theorem State.push_pc (h : s.sp.toNat < 16) : (s.push h).pc = s.pc := rfl
@[simp] theorem State.push_sp (h : s.sp.toNat < 16) : (s.push h).sp = s.sp + 1 := rfl
@[simp] theorem State.push_stack (h : s.sp.toNat < 16) : (s.push h).stack = s.stack.set s.sp.toNat s.pc h := rfl
@[simp] theorem State.push_dt (h : s.sp.toNat < 16) : (s.push h).dt = s.dt := rfl
@[simp] theorem State.push_mem (h : s.sp.toNat < 16) : (s.push h).mem = s.mem := rfl
@[simp] theorem State.push_disp (h : s.sp.toNat < 16) : (s.push h).disp = s.disp := rfl
@[simp] theorem State.push_keys (h : s.sp.toNat < 16) : (s.push h).keys = s.keys := rfl
@[simp] theorem State.push_status (h : s.sp.toNat < 16) : (s.push h).status = s.status := rfl
@[simp] theorem State.push_rngDraws (h : s.sp.toNat < 16) : (s.push h).rngDraws = s.rngDraws := rfl

/-! ### `storeBlock` -/

@[simp] theorem State.storeBlock_v (bs : List Byte) : (s.storeBlock bs).v = s.v := rfl
@[simp] theorem State.storeBlock_i (bs : List Byte) : (s.storeBlock bs).i = s.i := rfl
@[simp] theorem State.storeBlock_pc (bs : List Byte) : (s.storeBlock bs).pc = s.pc := rfl
@[simp] theorem State.storeBlock_sp (bs : List Byte) : (s.storeBlock bs).sp = s.sp := rfl
@[simp] theorem State.storeBlock_stack (bs : List Byte) : (s.storeBlock bs).stack = s.stack := rfl
@[simp] theorem State.storeBlock_dt (bs : List Byte) : (s.storeBlock bs).dt = s.dt := rfl
@[simp] theorem State.storeBlock_mem (bs : List Byte) : (s.storeBlock bs).mem = s.mem.writeBlock s.baseAddr bs := rfl
@[simp] theorem State.storeBlock_disp (bs : List Byte) : (s.storeBlock bs).disp = s.disp := rfl
@[simp] theorem State.storeBlock_keys (bs : List Byte) : (s.storeBlock bs).keys = s.keys := rfl
@[simp] theorem State.storeBlock_status (bs : List Byte) : (s.storeBlock bs).status = s.status := rfl
@[simp] theorem State.storeBlock_rngDraws (bs : List Byte) : (s.storeBlock bs).rngDraws = s.rngDraws := rfl

/-! ### `drawRandom` -/

@[simp] theorem State.drawRandom_v : (s.drawRandom).v = s.v := rfl
@[simp] theorem State.drawRandom_i : (s.drawRandom).i = s.i := rfl
@[simp] theorem State.drawRandom_pc : (s.drawRandom).pc = s.pc := rfl
@[simp] theorem State.drawRandom_sp : (s.drawRandom).sp = s.sp := rfl
@[simp] theorem State.drawRandom_stack : (s.drawRandom).stack = s.stack := rfl
@[simp] theorem State.drawRandom_dt : (s.drawRandom).dt = s.dt := rfl
@[simp] theorem State.drawRandom_mem : (s.drawRandom).mem = s.mem := rfl
@[simp] theorem State.drawRandom_disp : (s.drawRandom).disp = s.disp := rfl
@[simp] theorem State.drawRandom_keys : (s.drawRandom).keys = s.keys := rfl
@[simp] theorem State.drawRandom_status : (s.drawRandom).status = s.status := rfl
@[simp] theorem State.drawRandom_rngDraws : (s.drawRandom).rngDraws = s.rngDraws + 1 := rfl

/-! ### `loadRegsUpTo`: every field but the registers stays -/

@[simp] theorem State.loadRegsUpTo_i (x : Nibble) : (s.loadRegsUpTo x).i = s.i := rfl
@[simp] theorem State.loadRegsUpTo_pc (x : Nibble) : (s.loadRegsUpTo x).pc = s.pc := rfl
@[simp] theorem State.loadRegsUpTo_sp (x : Nibble) : (s.loadRegsUpTo x).sp = s.sp := rfl
@[simp] theorem State.loadRegsUpTo_stack (x : Nibble) : (s.loadRegsUpTo x).stack = s.stack := rfl
@[simp] theorem State.loadRegsUpTo_dt (x : Nibble) : (s.loadRegsUpTo x).dt = s.dt := rfl
@[simp] theorem State.loadRegsUpTo_mem (x : Nibble) : (s.loadRegsUpTo x).mem = s.mem := rfl
@[simp] theorem State.loadRegsUpTo_disp (x : Nibble) : (s.loadRegsUpTo x).disp = s.disp := rfl
@[simp] theorem State.loadRegsUpTo_keys (x : Nibble) : (s.loadRegsUpTo x).keys = s.keys := rfl
@[simp] theorem State.loadRegsUpTo_status (x : Nibble) : (s.loadRegsUpTo x).status = s.status := rfl
@[simp] theorem State.loadRegsUpTo_rngDraws (x : Nibble) : (s.loadRegsUpTo x).rngDraws = s.rngDraws := rfl

/-! ### `skipIf`: only PC can change -/

@[simp] theorem State.skipIf_v (c : Bool) : (s.skipIf c).v = s.v := by cases c <;> rfl
@[simp] theorem State.skipIf_i (c : Bool) : (s.skipIf c).i = s.i := by cases c <;> rfl
@[simp] theorem State.skipIf_pc (c : Bool) : (s.skipIf c).pc = if c then s.pc + 2 else s.pc := by
  cases c <;> rfl
@[simp] theorem State.skipIf_sp (c : Bool) : (s.skipIf c).sp = s.sp := by cases c <;> rfl
@[simp] theorem State.skipIf_stack (c : Bool) : (s.skipIf c).stack = s.stack := by cases c <;> rfl
@[simp] theorem State.skipIf_dt (c : Bool) : (s.skipIf c).dt = s.dt := by cases c <;> rfl
@[simp] theorem State.skipIf_mem (c : Bool) : (s.skipIf c).mem = s.mem := by cases c <;> rfl
@[simp] theorem State.skipIf_disp (c : Bool) : (s.skipIf c).disp = s.disp := by cases c <;> rfl
@[simp] theorem State.skipIf_keys (c : Bool) : (s.skipIf c).keys = s.keys := by cases c <;> rfl
@[simp] theorem State.skipIf_status (c : Bool) : (s.skipIf c).status = s.status := by cases c <;> rfl
@[simp] theorem State.skipIf_rngDraws (c : Bool) : (s.skipIf c).rngDraws = s.rngDraws := by cases c <;> rfl

/-! ### Registers as read -/

/-- Reading a register after writing one. -/
theorem State.getV_setV (x y : Nibble) (b : Byte) :
    (s.setV x b).getV y = if y = x then b else s.getV y := by
  by_cases h : y = x
  · subst h; simp [State.getV, State.setV]
  · have hn : x.toNat ≠ y.toNat := fun e => h (BitVec.eq_of_toNat_eq e.symm)
    simp [State.getV, State.setV, hn, h]

@[simp] theorem State.getV_setV_same (x : Nibble) (b : Byte) : (s.setV x b).getV x = b := by
  simp [State.getV_setV]

/-- The flag is written last, so VF holds it whatever the destination (R170). -/
theorem State.getV_setResultAndFlag (x y : Nibble) (r f : Byte) :
    (s.setResultAndFlag x r f).getV y = if y = flagReg then f else if y = x then r else s.getV y := by
  simp [State.setResultAndFlag, State.getV_setV]

/-- A register after a block load (R256). -/
theorem State.getV_loadRegsUpTo (x y : Nibble) :
    (s.loadRegsUpTo x).getV y = if y.toNat ≤ x.toNat then s.mem.read (s.baseAddr + y.toNat) else s.getV y := by
  simp [State.getV, State.loadRegsUpTo, Vector.get_eq_getElem]

/-- Reading a register looks at nothing but the register file. -/
theorem State.getV_congr {s t : State} (h : s.v = t.v) (x : Nibble) : s.getV x = t.getV x := by
  simp [State.getV, h]

@[simp] theorem State.getV_advance (x : Nibble) : s.advance.getV x = s.getV x := rfl
@[simp] theorem State.getV_enterFault (f : FatalFault) (x : Nibble) : (s.enterFault f).getV x = s.getV x := rfl
@[simp] theorem State.getV_tick (x : Nibble) : s.tick.getV x = s.getV x := rfl
@[simp] theorem State.getV_push (h : s.sp.toNat < 16) (x : Nibble) : (s.push h).getV x = s.getV x := rfl
@[simp] theorem State.getV_storeBlock (bs : List Byte) (x : Nibble) : (s.storeBlock bs).getV x = s.getV x := rfl
@[simp] theorem State.getV_drawRandom (x : Nibble) : s.drawRandom.getV x = s.getV x := rfl
@[simp] theorem State.getV_skipIf (c : Bool) (x : Nibble) : (s.skipIf c).getV x = s.getV x := by cases c <;> rfl

/-- The ranges of the instructions start at I (R55). -/
@[simp] theorem State.baseAddr_eq : s.baseAddr = s.i.toNat := rfl

/-- V0..Vx are x + 1 bytes (R255). -/
@[simp] theorem State.length_regsUpTo (x : Nibble) : (s.regsUpTo x).length = x.toNat + 1 := by
  have := x.isLt
  simp only [State.regsUpTo, List.length_take, Vector.length_toList]
  omega

/-- Byte j of V0..Vx is Vj (R255). -/
theorem State.getElem_regsUpTo (x r : Nibble) (h : r.toNat < (s.regsUpTo x).length) :
    (s.regsUpTo x)[r.toNat] = s.getV r := by
  simp [State.regsUpTo, State.getV]

/-- The fetch address of the executing instruction, seen from the execute step (R102). -/
@[simp] theorem State.instrAddr_advance : s.advance.instrAddr = s.pc := by
  simp [State.instrAddr, State.advance]

/-- A state that differs from another in no field is that state. -/
theorem State.fields_ext {s t : State} (hv : s.v = t.v) (hi : s.i = t.i) (hpc : s.pc = t.pc) (hsp : s.sp = t.sp)
    (hst : s.stack = t.stack) (hdt : s.dt = t.dt) (hm : s.mem = t.mem) (hd : s.disp = t.disp) (hk : s.keys = t.keys)
    (hs : s.status = t.status) (hr : s.rngDraws = t.rngDraws) : s = t := by
  cases s; cases t; simp_all

end Sys2Proof.Machine
end

