-- ==== Sys2Proof/Laws/Ops.lean ====
section
/-! SUPPORT. Laws/Ops.lean: one lemma for each shared operation that says everything it can do. -/

namespace Sys2Proof.Machine

/-- Every `raise` answers the state with PC back at the instruction and STATUS Faulted (R105, R301). -/
theorem raise_eq (f : Word → FatalFault) (s : State) :
    raise f s = .next { s with pc := s.pc - 2, status := .faulted (f (s.pc - 2)) } := rfl

/-- `withRange` answers `done` when the range lies in memory (R55). -/
theorem withRange_inside {n : Nat} {word : Word} {s done : State} (h : rangeInMemory s.i.toNat n) :
    withRange n word s done = .next done := if_pos h

/-- `withRange` raises MemoryOutOfRange when the range leaves memory (R55). -/
theorem withRange_outside {n : Nat} {word : Word} {s done : State} (h : ¬ rangeInMemory s.i.toNat n) :
    withRange n word s done
      = .next { s with pc := s.pc - 2,
                       status := .faulted (.memoryOutOfRange (s.pc - 2) word (max s.i.toNat Config.memSize)) } :=
  if_neg h

/-- Everything `withRange` can answer. -/
theorem withRange_cases {n : Nat} {word : Word} {s done t : State} (h : withRange n word s done = .next t) :
    (rangeInMemory s.i.toNat n ∧ t = done) ∨
    (¬ rangeInMemory s.i.toNat n ∧
      t = { s with pc := s.pc - 2,
                   status := .faulted (.memoryOutOfRange (s.pc - 2) word (max s.i.toNat Config.memSize)) }) := by
  by_cases hr : rangeInMemory s.i.toNat n
  · rw [withRange_inside hr] at h
    exact .inl ⟨hr, (Host.Outcome.next.inj h).symm⟩
  · rw [withRange_outside hr] at h
    exact .inr ⟨hr, (Host.Outcome.next.inj h).symm⟩

/-- `withKey` hands over the flag of the key that Vx names (R241, R242). -/
theorem withKey_inside {x : Nibble} {word : Word} {s : State} {done : Bool → State} (k : Fin 16)
    (h : (s.getV x).toNat = k.val) : withKey x word s done = .next (done (s.keys.get k)) := by
  have hk : (⟨(s.getV x).toNat, by omega⟩ : Fin 16) = k := Fin.ext h
  rw [withKey, dif_pos (by omega), State.pressed, hk]

/-- `withKey` raises KeyIndexOutOfRange on any other number (R244). -/
theorem withKey_outside {x : Nibble} {word : Word} {s : State} {done : Bool → State} (h : 0xF < (s.getV x).toNat) :
    withKey x word s done
      = .next { s with pc := s.pc - 2,
                       status := .faulted (.keyIndexOutOfRange (s.pc - 2) word (s.getV x)) } := by
  rw [withKey, dif_neg (by omega), raise_eq]

/-- Everything `withKey` can answer. -/
theorem withKey_cases {x : Nibble} {word : Word} {s t : State} {done : Bool → State}
    (h : withKey x word s done = .next t) :
    (∃ k : Fin 16, (s.getV x).toNat = k.val ∧ t = done (s.keys.get k)) ∨
    (0xF < (s.getV x).toNat ∧
      t = { s with pc := s.pc - 2,
                   status := .faulted (.keyIndexOutOfRange (s.pc - 2) word (s.getV x)) }) := by
  by_cases hk : (s.getV x).toNat < 16
  · rw [withKey_inside ⟨_, hk⟩ rfl] at h
    exact .inl ⟨⟨_, hk⟩, rfl, (Host.Outcome.next.inj h).symm⟩
  · rw [withKey_outside (by omega)] at h
    exact .inr ⟨by omega, (Host.Outcome.next.inj h).symm⟩

/-- The lowest pressed key of 0..14 is the one that the scan finds (R280). -/
theorem State.firstPressed_eq_some_iff {s : State} {k : Nat} :
    s.firstPressed = some k ↔
      ∃ h : k < 15, s.keys.get ⟨k, by omega⟩ = true ∧ ∀ j (hj : j < k), s.keys.get ⟨j, by omega⟩ = false := by
  simp only [State.firstPressed, List.findIdx?_eq_some_iff_getElem, Vector.get_eq_getElem]
  constructor
  · rintro ⟨h, hk, hj⟩
    have h15 : k < 15 := by simp at h; omega
    refine ⟨h15, by simpa using hk, fun j hjk => ?_⟩
    simpa using hj j hjk
  · rintro ⟨h15, hk, hj⟩
    refine ⟨by simp; omega, by simpa using hk, fun j hjk => ?_⟩
    simpa using hj j hjk

/-- The scan finds nothing exactly when none of the keys 0..14 is pressed (R280). -/
theorem State.firstPressed_eq_none_iff {s : State} :
    s.firstPressed = none ↔ ∀ k : Fin 16, k.val < 15 → s.keys.get k = false := by
  simp only [State.firstPressed, List.findIdx?_eq_none_iff, List.mem_iff_getElem, Vector.get_eq_getElem]
  constructor
  · intro h k hk
    simpa using h s.keys[k.val] ⟨k.val, by simp; omega, by simp⟩
  · rintro h b ⟨k, hk, rfl⟩
    have hk15 : k < 15 := by simp at hk; omega
    simpa using h ⟨k, by omega⟩ hk15

/-- A byte counted down (R104). -/
theorem toNat_countDown (b : Byte) : (countDown b).toNat = b.toNat - 1 := by
  unfold countDown
  split
  · rename_i h; simp [h]
  · rename_i h
    have hpos : b.toNat ≠ 0 := fun e => h (BitVec.eq_of_toNat_eq e)
    have := b.isLt
    simp [BitVec.toNat_sub]
    omega

/-- The word that the fetch reads (R101). -/
theorem State.fetch_eq_some_iff {s : State} {w : Word} :
    s.fetch = some w ↔
      s.pc.toNat ≤ 0xFFE ∧ w = wordOfBytes (s.mem.read s.pc.toNat) (s.mem.read (s.pc.toNat + 1)) :=
  Memory.fetch16_eq_some_iff

/-- There is no fetch above 0xFFE (R101). -/
theorem State.fetch_eq_none_iff {s : State} : s.fetch = none ↔ 0xFFE < s.pc.toNat := Memory.fetch16_eq_none_iff

/-- Everything `completeCycle` can answer next: the tick of a state that is Running, or a faulted state as it is. -/
theorem completeCycle_cases {r : Result} {u : State} (h : completeCycle r = .next u) :
    ∃ t, r = .next t ∧ ((t.status = .running ∧ u = t.tick) ∨ (t.status ≠ .running ∧ u = t)) := by
  cases r with
  | next t =>
    refine ⟨t, rfl, ?_⟩
    unfold completeCycle at h
    cases hs : t.status <;> simp_all
  | fault r => simp [completeCycle] at h
  | refused r => simp [completeCycle] at h

/-- A step of a Running engine whose fetch succeeds (R100). -/
theorem step_of_fetch {s : State} {w : Word} (hs : s.status = .running) (hf : s.fetch = some w) :
    step s = completeCycle (exec (decode w) s.advance) := by simp [step, hs, hf]

/-- A step of a Running engine whose fetch faults (R101). -/
theorem step_of_no_fetch {s : State} (hs : s.status = .running) (hf : s.fetch = none) :
    step s = .next (s.enterFault (.fetchOutOfRange s.pc)) := by simp [step, hs, hf]

/-- A step of a Faulted engine (R106). -/
theorem step_of_faulted {s : State} {f : FatalFault} (hs : s.status = .faulted f) : step s = .next s := by
  simp [step, hs]

/-- Everything a step can answer next (R100). -/
theorem step_cases {s u : State} (h : step s = .next u) :
    ((∃ f, s.status = .faulted f) ∧ u = s) ∨
    (s.status = .running ∧ 0xFFE < s.pc.toNat ∧ u = s.enterFault (.fetchOutOfRange s.pc)) ∨
    (∃ w t, s.status = .running ∧ s.fetch = some w ∧ exec (decode w) s.advance = .next t ∧
      ((t.status = .running ∧ u = t.tick) ∨ (t.status ≠ .running ∧ u = t))) := by
  cases hs : s.status with
  | faulted f =>
    rw [step_of_faulted hs] at h
    exact .inl ⟨⟨f, rfl⟩, (Host.Outcome.next.inj h).symm⟩
  | running =>
    cases hf : s.fetch with
    | none =>
      rw [step_of_no_fetch hs hf] at h
      exact .inr (.inl ⟨rfl, State.fetch_eq_none_iff.mp hf, (Host.Outcome.next.inj h).symm⟩)
    | some w =>
      rw [step_of_fetch hs hf] at h
      obtain ⟨t, ht, hu⟩ := completeCycle_cases h
      exact .inr (.inr ⟨w, t, rfl, rfl, ht, hu⟩)

end Sys2Proof.Machine
end

