-- ==== Sys2Proof/Laws/Safety.lean ====
section
/-! SUPPORT. Laws/Safety.lean: the small lemmas of the terms that claims are stated in. -/

namespace Sys2Proof.Machine

/-! ### Ranges from I -/

theorem State.RangeLeavesMemory.of_drw {s : State} {x y n : Nibble} (h : ¬ rangeInMemory s.i.toNat n.toNat) :
    s.RangeLeavesMemory (.drw x y n) := by
  simp only [rangeInMemory, Config.memSize, not_or, not_le] at h
  exact .inl ⟨x, y, n, rfl, fun hn => h.1 (congrArg BitVec.toNat hn), h.2⟩

theorem State.RangeLeavesMemory.of_bcd {s : State} {x : Nibble} (h : ¬ rangeInMemory s.i.toNat 3) :
    s.RangeLeavesMemory (.ldBVx x) := by
  simp only [rangeInMemory, Config.memSize, not_or, not_le] at h
  exact .inr (.inl ⟨x, rfl, by omega⟩)

theorem State.RangeLeavesMemory.of_blockStore {s : State} {x : Nibble}
    (h : ¬ rangeInMemory s.i.toNat (x.toNat + 1)) : s.RangeLeavesMemory (.ldMemVx x) := by
  simp only [rangeInMemory, Config.memSize, not_or, not_le] at h
  exact .inr (.inr (.inl ⟨x, rfl, by omega⟩))

theorem State.RangeLeavesMemory.of_blockLoad {s : State} {x : Nibble}
    (h : ¬ rangeInMemory s.i.toNat (x.toNat + 1)) : s.RangeLeavesMemory (.ldVxMem x) := by
  simp only [rangeInMemory, Config.memSize, not_or, not_le] at h
  exact .inr (.inr (.inr ⟨x, rfl, by omega⟩))

/-! ### Stored bytes -/

/-- What every address reads as after a store of a block (R53, R57). -/
theorem Memory.read_writeBlock_eq_byteAfterStore {m : Memory} {base : Nat} {bs : List Byte} (h : m.wf = true)
    (hb : base + bs.length ≤ Config.memSize) (a : Nat) :
    (m.writeBlock base bs).read a = byteAfterStore m base bs a := by
  rw [Memory.read_writeBlock h (.inr hb), byteAfterStore]
  by_cases h1 : base ≤ a
  · by_cases h2 : a - base < bs.length
    · rw [dif_pos ⟨h1, h2⟩, if_pos h1, List.getD_eq_getElem _ _ h2]
    · rw [dif_neg (by omega), if_pos h1, List.getD_eq_default _ _ (by omega)]
  · rw [dif_neg (by omega), if_neg h1]

/-- The word that is fetched at `a` after a store of a block (R52, R61). -/
theorem State.fetch_storeBlock {s : State} {bs : List Byte} (h : s.mem.wf = true)
    (hb : s.i.toNat + bs.length ≤ Config.memSize) {a : Nat} (ha : a ≤ 0xFFE) :
    ({ s.storeBlock bs with pc := BitVec.ofNat 16 a } : State).fetch =
      some (byteAfterStore s.mem s.i.toNat bs a ++ byteAfterStore s.mem s.i.toNat bs (a + 1)) := by
  have ha' : (BitVec.ofNat 16 a).toNat = a := by simp; omega
  simp only [State.fetch, Memory.fetch16, ha', State.storeBlock_mem, State.baseAddr_eq,
    Memory.read_writeBlock_eq_byteAfterStore h hb, Config.memSize]
  exact if_pos (by omega)

/-! ### Runs of host events -/

@[simp] theorem hostRun_nil (p : Session) : hostRun [] p = .next p := rfl

theorem hostRun_cons {e : HostEvent} {es : List HostEvent} {p q : Session} (h : hostStep e p = .next q) :
    hostRun (e :: es) p = hostRun es q := by
  rw [hostRun, h]

end Sys2Proof.Machine
end

