-- ==== Sys2Proof/Laws/Exec.lean ====
section
/-! SUPPORT. Laws/Exec.lean: what an execute step can do to STATUS, said once over all instructions. -/

namespace Sys2Proof.Machine

/-- What the execute step of `i` does to STATUS when it answers next: nothing, or it raises the one fault of `i`, whose
condition then holds, and its answer is the state before the cycle with that fault in STATUS (R105, R300). -/
inductive ExecStatus (i : Instr) (s t : State) : Prop where
  | kept (h : t.status = s.status)
  | overflow (h : t = s.stoppedWith (.stackOverflow (s.pc - 2) (encode i))) (isCall : ∃ nnn, i = .call nnn)
      (full : 16 ≤ s.sp.toNat)
  | underflow (h : t = s.stoppedWith (.stackUnderflow (s.pc - 2) (encode i))) (isRet : ∃ x, i = .ret x)
      (empty : s.sp.toNat = 0)
  | memory (h : t = s.stoppedWith (.memoryOutOfRange (s.pc - 2) (encode i) (max s.i.toNat Config.memSize)))
      (leaves : s.RangeLeavesMemory i)
  | key (k : Byte) (h : t = s.stoppedWith (.keyIndexOutOfRange (s.pc - 2) (encode i) k))
      (absent : s.TestsAbsentKey i k)

/-- An answer that keeps STATUS. -/
theorem ExecStatus.of_next {i : Instr} {s t u : State} (h : Host.Outcome.next (φ := Fault) (ρ := Refusal) u = .next t)
    (hu : u.status = s.status) : ExecStatus i s t := by
  cases Host.Outcome.next.inj h; exact .kept hu

/-- An answer of `withRange`. -/
theorem ExecStatus.of_withRange {i : Instr} {n : Nat} {s t done : State} (h : withRange n (encode i) s done = .next t)
    (hd : done.status = s.status) (hn : ¬ rangeInMemory s.i.toNat n → s.RangeLeavesMemory i) : ExecStatus i s t := by
  rcases withRange_cases h with ⟨-, rfl⟩ | ⟨hr, rfl⟩
  · exact .kept hd
  · exact .memory rfl (hn hr)

/-- An answer of `withKey`. -/
theorem ExecStatus.of_withKey {i : Instr} {x : Nibble} {s t : State} {done : Bool → State}
    (h : withKey x (encode i) s done = .next t) (hd : ∀ b, (done b).status = s.status) (hi : i = .skp x ∨ i = .sknp x) :
    ExecStatus i s t := by
  rcases withKey_cases h with ⟨k, -, rfl⟩ | ⟨hk, rfl⟩
  · exact .kept (hd _)
  · exact .key _ rfl ⟨x, hi, rfl, hk⟩

/-- The execute step of every instruction keeps STATUS or raises its one fault. -/
theorem exec_status {i : Instr} {s t : State} (h : exec i s = .next t) : ExecStatus i s t := by
  cases i with
  | ret x =>
    simp only [exec, execRet] at h
    split at h
    · rename_i hz
      exact .underflow (Host.Outcome.next.inj h).symm ⟨x, rfl⟩ (by simp [hz])
    · split at h
      · exact .of_next h rfl
      · cases h
  | call nnn =>
    simp only [exec, execCall] at h
    split at h
    · exact .of_next h rfl
    · exact .overflow (Host.Outcome.next.inj h).symm ⟨nnn, rfl⟩ (by omega)
  | ldVxK x =>
    simp only [exec, execLdVxK] at h
    split at h <;> exact .of_next h rfl
  | drw x y n => exact .of_withRange h rfl State.RangeLeavesMemory.of_drw
  | ldBVx x => exact .of_withRange h rfl State.RangeLeavesMemory.of_bcd
  | ldMemVx x => exact .of_withRange h rfl State.RangeLeavesMemory.of_blockStore
  | ldVxMem x => exact .of_withRange h rfl State.RangeLeavesMemory.of_blockLoad
  | skp x =>
    simp only [exec, execSkp] at h
    exact .of_withKey h (fun _ => State.skipIf_status ..) (.inl rfl)
  | sknp x =>
    simp only [exec, execSknp] at h
    exact .of_withKey h (fun _ => State.skipIf_status ..) (.inr rfl)
  | seVxKk x kk => exact .of_next h (State.skipIf_status ..)
  | sneVxKk x kk => exact .of_next h (State.skipIf_status ..)
  | seVxVy x y n => exact .of_next h (State.skipIf_status ..)
  | sneVxVy x y n => exact .of_next h (State.skipIf_status ..)
  | _ => exact .of_next h rfl

end Sys2Proof.Machine
end

