-- ==== Sys2Proof/Laws/Operands.lean ====
section
/-! SUPPORT. Laws/Operands.lean: the values of the operand forms and of the flags. -/

namespace Sys2Proof.Machine

/-- An address operand is nnn, zero-extended (R73). -/
theorem addrOperand_eq_ofNat (nnn : Addr) : addrOperand nnn = BitVec.ofNat 16 nnn.toNat := by
  have := nnn.isLt
  apply BitVec.eq_of_toNat_eq
  simp [addrOperand]

@[simp] theorem toNat_addrOperand (nnn : Addr) : (addrOperand nnn).toNat = nnn.toNat := by
  have := nnn.isLt
  simp only [addrOperand, BitVec.toNat_setWidth]
  omega

@[simp] theorem toNat_wideByte (b : Byte) : (wideByte b).toNat = b.toNat := by
  have := b.isLt
  simp only [wideByte, BitVec.toNat_setWidth]
  omega

/-- The computed target is the exact sum nnn + V0: it never wraps (R201). -/
@[simp] theorem toNat_computedTarget (s : State) (nnn : Addr) :
    (computedTarget s nnn).toNat = nnn.toNat + (s.getV 0x0#4).toNat := by
  have := nnn.isLt
  have := (s.getV 0x0#4).isLt
  simp only [computedTarget, BitVec.toNat_add, toNat_addrOperand, toNat_wideByte]
  omega

/-- The glyph address is exact (R253). -/
@[simp] theorem toNat_glyphAddr (b : Byte) : (glyphAddr b).toNat = 0x050 + 5 * b.toNat := by
  have := b.isLt
  simp only [glyphAddr, BitVec.toNat_ofNat, Config.glyphBase, Config.glyphBytes]
  omega

/-- The three digits of a byte (R254). -/
theorem decimalDigits_toNat (b : Byte) :
    (decimalDigits b).map BitVec.toNat = [b.toNat / 100, b.toNat / 10 % 10, b.toNat % 10] := by
  simp [decimalDigits]

@[simp] theorem length_decimalDigits (b : Byte) : (decimalDigits b).length = 3 := rfl

/-- The carry flag (R175). -/
theorem carryFlag_eq (a b : Byte) : carryFlag a b = if 0xFF < a.toNat + b.toNat then 1#8 else 0#8 := by
  simp [carryFlag, flagByte]

/-- The NOT-borrow flag (R176, R178). -/
theorem notBorrowFlag_eq (a b : Byte) : notBorrowFlag a b = if b.toNat ≤ a.toNat then 1#8 else 0#8 := by
  simp [notBorrowFlag, flagByte]

/-- The bit that a right shift moves out (R177). -/
theorem toNat_shiftRightFlag (a : Byte) : (shiftRightFlag a).toNat = a.toNat % 2 := by
  simp [shiftRightFlag]

/-- The bit that a left shift moves out (R179). -/
theorem toNat_shiftLeftFlag (a : Byte) : (shiftLeftFlag a).toNat = a.toNat / 128 := by
  have := a.isLt
  simp [shiftLeftFlag, Nat.shiftRight_eq_div_pow]
  omega

/-- The collision flag is 1 exactly on a collision, and else 0 (R224). -/
theorem collisionFlag_eq (c : Bool) : collisionFlag c = if c = true then 1#8 else 0#8 := by
  cases c <;> rfl

end Sys2Proof.Machine
end

