-- ==== Sys2Proof/Laws/PerInstr.lean ====
section
/-! SUPPORT. Laws/PerInstr.lean: one statement about every instruction as syntax, proved constructor by constructor.
FamilyNibble: the word of an instruction carries, in bits 15:12, the family of its opcode-table row (R74). -/

namespace Sys2Proof.Laws.FamilyNibble

open Sys2Proof.Machine

/-- The family nibble of the encoding is that of the instruction's row of the opcode table (R74). -/
def Statement (i : Instr) : Prop := fieldOp (encode i) = fieldOp (opcodeRow i).pattern

/-- A word of the layout op, x, kk carries `op` as its family. -/
theorem of_packXKk {i : Instr} {op x : Nibble} {kk : Byte} (h : encode i = packXKk op x kk)
    (hop : op = fieldOp (opcodeRow i).pattern) : Statement i := by
  rw [Statement, h, fieldOp_packXKk, hop]

/-- A word of the layout op, x, y, n carries `op` as its family. -/
theorem of_packXYN {i : Instr} {op x y n : Nibble} (h : encode i = packXYN op x y n)
    (hop : op = fieldOp (opcodeRow i).pattern) : Statement i := by
  rw [Statement, h, fieldOp_packXYN, hop]

/-- A word of the layout op, nnn carries `op` as its family. -/
theorem of_packNnn {i : Instr} {op : Nibble} {nnn : Addr} (h : encode i = packNnn op nnn)
    (hop : op = fieldOp (opcodeRow i).pattern) : Statement i := by
  rw [Statement, h, fieldOp_packNnn, hop]

theorem cls (x : Nibble) : Statement (.cls x) := of_packXKk rfl (by simp [fieldOp, opcodeRow])
theorem ret (x : Nibble) : Statement (.ret x) := of_packXKk rfl (by simp [fieldOp, opcodeRow])
theorem nopFamily0 (nnn : Addr) : Statement (.nopFamily0 nnn) := of_packNnn rfl (by simp [fieldOp, opcodeRow])
theorem jp (nnn : Addr) : Statement (.jp nnn) := of_packNnn rfl (by simp [fieldOp, opcodeRow])
theorem call (nnn : Addr) : Statement (.call nnn) := of_packNnn rfl (by simp [fieldOp, opcodeRow])
theorem seVxKk (x : Nibble) (kk : Byte) : Statement (.seVxKk x kk) := of_packXKk rfl (by simp [fieldOp, opcodeRow])
theorem sneVxKk (x : Nibble) (kk : Byte) : Statement (.sneVxKk x kk) := of_packXKk rfl (by simp [fieldOp, opcodeRow])
theorem seVxVy (x y n : Nibble) : Statement (.seVxVy x y n) := of_packXYN rfl (by simp [fieldOp, opcodeRow])
theorem ldVxKk (x : Nibble) (kk : Byte) : Statement (.ldVxKk x kk) := of_packXKk rfl (by simp [fieldOp, opcodeRow])
theorem addVxKk (x : Nibble) (kk : Byte) : Statement (.addVxKk x kk) := of_packXKk rfl (by simp [fieldOp, opcodeRow])
theorem ldVxVy (x y : Nibble) : Statement (.ldVxVy x y) := of_packXYN rfl (by simp [fieldOp, opcodeRow])
theorem orVxVy (x y : Nibble) : Statement (.orVxVy x y) := of_packXYN rfl (by simp [fieldOp, opcodeRow])
theorem andVxVy (x y : Nibble) : Statement (.andVxVy x y) := of_packXYN rfl (by simp [fieldOp, opcodeRow])
theorem xorVxVy (x y : Nibble) : Statement (.xorVxVy x y) := of_packXYN rfl (by simp [fieldOp, opcodeRow])
theorem addVxVy (x y : Nibble) : Statement (.addVxVy x y) := of_packXYN rfl (by simp [fieldOp, opcodeRow])
theorem subVxVy (x y : Nibble) : Statement (.subVxVy x y) := of_packXYN rfl (by simp [fieldOp, opcodeRow])
theorem shrVx (x y : Nibble) : Statement (.shrVx x y) := of_packXYN rfl (by simp [fieldOp, opcodeRow])
theorem subnVxVy (x y : Nibble) : Statement (.subnVxVy x y) := of_packXYN rfl (by simp [fieldOp, opcodeRow])
theorem shlVx (x y : Nibble) : Statement (.shlVx x y) := of_packXYN rfl (by simp [fieldOp, opcodeRow])
theorem nopFamily8 (x y n : Nibble) : Statement (.nopFamily8 x y n) := of_packXYN rfl (by simp [fieldOp, opcodeRow])
theorem sneVxVy (x y n : Nibble) : Statement (.sneVxVy x y n) := of_packXYN rfl (by simp [fieldOp, opcodeRow])
theorem ldINnn (nnn : Addr) : Statement (.ldINnn nnn) := of_packNnn rfl (by simp [fieldOp, opcodeRow])
theorem jpV0Nnn (nnn : Addr) : Statement (.jpV0Nnn nnn) := of_packNnn rfl (by simp [fieldOp, opcodeRow])
theorem rndVxKk (x : Nibble) (kk : Byte) : Statement (.rndVxKk x kk) := of_packXKk rfl (by simp [fieldOp, opcodeRow])
theorem drw (x y n : Nibble) : Statement (.drw x y n) := of_packXYN rfl (by simp [fieldOp, opcodeRow])
theorem skp (x : Nibble) : Statement (.skp x) := of_packXKk rfl (by simp [fieldOp, opcodeRow])
theorem sknp (x : Nibble) : Statement (.sknp x) := of_packXKk rfl (by simp [fieldOp, opcodeRow])
theorem nopFamilyE (x : Nibble) (kk : Byte) : Statement (.nopFamilyE x kk) := of_packXKk rfl (by simp [fieldOp, opcodeRow])
theorem ldVxDt (x : Nibble) : Statement (.ldVxDt x) := of_packXKk rfl (by simp [fieldOp, opcodeRow])
theorem ldVxK (x : Nibble) : Statement (.ldVxK x) := of_packXKk rfl (by simp [fieldOp, opcodeRow])
theorem ldDtVx (x : Nibble) : Statement (.ldDtVx x) := of_packXKk rfl (by simp [fieldOp, opcodeRow])
theorem addIVx (x : Nibble) : Statement (.addIVx x) := of_packXKk rfl (by simp [fieldOp, opcodeRow])
theorem ldFVx (x : Nibble) : Statement (.ldFVx x) := of_packXKk rfl (by simp [fieldOp, opcodeRow])
theorem ldBVx (x : Nibble) : Statement (.ldBVx x) := of_packXKk rfl (by simp [fieldOp, opcodeRow])
theorem ldMemVx (x : Nibble) : Statement (.ldMemVx x) := of_packXKk rfl (by simp [fieldOp, opcodeRow])
theorem ldVxMem (x : Nibble) : Statement (.ldVxMem x) := of_packXKk rfl (by simp [fieldOp, opcodeRow])
theorem nopFamilyF (x : Nibble) (kk : Byte) : Statement (.nopFamilyF x kk) := of_packXKk rfl (by simp [fieldOp, opcodeRow])

end Sys2Proof.Laws.FamilyNibble
end

