-- ==== Sys2Proof/Tests/Slice0.lean ====
section
/-! SUPPORT. Tests/Slice0.lean: the model's own tests. Expected values are those of spec/95_test_vectors.md (cited as
L2.<block> #<row>) or of the rule named; then, for every obligation with hypotheses, a witness that meets them. -/

namespace Sys2Proof.Tests

open Sys2Proof.Machine

/-! ### Well-formedness: an ill-formed term for each check -/

theorem test_nopFamily0_of_cls_word_refused : Instr.wellFormed (.nopFamily0 0x1E0#12) = false := by decide
theorem test_nopFamily8_of_or_word_refused : Instr.wellFormed (.nopFamily8 0#4 1#4 0x1#4) = false := by decide
theorem test_nopFamilyE_of_skp_word_refused : Instr.wellFormed (.nopFamilyE 5#4 0x9E#8) = false := by decide
theorem test_nopFamilyF_of_key_wait_word_refused : Instr.wellFormed (.nopFamilyF 3#4 0x0A#8) = false := by decide
theorem test_nopFamilyF_of_sound_word_accepted : Instr.wellFormed (.nopFamilyF 3#4 0x18#8) = true := by decide

/-! ### Decoding: every constructor by a word written out from the opcode map (R83) -/

theorem test_decode_families_0_to_2 :
    [0x00E0#16, 0x05E0#16, 0x00EE#16, 0x0FEE#16, 0x0123#16, 0x00E1#16, 0x1ABC#16, 0x2300#16].map decode =
      [.cls 0#4, .cls 5#4, .ret 0#4, .ret 0xF#4, .nopFamily0 0x123#12, .nopFamily0 0x0E1#12, .jp 0xABC#12,
       .call 0x300#12] := by decide
theorem test_decode_families_3_to_7_and_9 :
    [0x320A#16, 0x420A#16, 0x5120#16, 0x5121#16, 0x6FAA#16, 0x7320#16, 0x9120#16, 0x933F#16].map decode =
      [.seVxKk 2#4 0x0A#8, .sneVxKk 2#4 0x0A#8, .seVxVy 1#4 2#4 0#4, .seVxVy 1#4 2#4 1#4, .ldVxKk 0xF#4 0xAA#8,
       .addVxKk 3#4 0x20#8, .sneVxVy 1#4 2#4 0#4, .sneVxVy 3#4 3#4 0xF#4] := by decide
theorem test_decode_family_8 :
    [0x8120#16, 0x8121#16, 0x8122#16, 0x8123#16, 0x8124#16, 0x8125#16, 0x8126#16, 0x8127#16, 0x812E#16, 0x8128#16,
     0x812F#16].map decode =
      [.ldVxVy 1#4 2#4, .orVxVy 1#4 2#4, .andVxVy 1#4 2#4, .xorVxVy 1#4 2#4, .addVxVy 1#4 2#4, .subVxVy 1#4 2#4,
       .shrVx 1#4 2#4, .subnVxVy 1#4 2#4, .shlVx 1#4 2#4, .nopFamily8 1#4 2#4 8#4, .nopFamily8 1#4 2#4 0xF#4] := by
  decide
theorem test_decode_families_A_to_E :
    [0xAFFF#16, 0xB300#16, 0xC30F#16, 0xD125#16, 0xE59E#16, 0xE5A1#16, 0xE19F#16].map decode =
      [.ldINnn 0xFFF#12, .jpV0Nnn 0x300#12, .rndVxKk 3#4 0x0F#8, .drw 1#4 2#4 5#4, .skp 5#4, .sknp 5#4,
       .nopFamilyE 1#4 0x9F#8] := by decide
theorem test_decode_family_F :
    [0xF307#16, 0xF30A#16, 0xF315#16, 0xF21E#16, 0xF029#16, 0xF333#16, 0xF255#16, 0xF265#16, 0xF318#16].map decode =
      [.ldVxDt 3#4, .ldVxK 3#4, .ldDtVx 3#4, .addIVx 2#4, .ldFVx 0#4, .ldBVx 3#4, .ldMemVx 2#4, .ldVxMem 2#4,
       .nopFamilyF 3#4 0x18#8] := by decide
theorem test_decode_table_word : decodeTableWord 16 0xD125 = some (.drw 1#4 2#4 5#4) := by decide
theorem test_decode_one_byte_truncated : decodeBytes [0x12#8] = .error .truncated := by decide
theorem test_encode_words :
    [Instr.ret 0xF#4, .call 0x300#12, .seVxKk 2#4 0x0A#8, .shlVx 1#4 2#4, .drw 1#4 2#4 5#4, .ldVxMem 2#4].map encode =
      [0x0FEE#16, 0x2300#16, 0x320A#16, 0x812E#16, 0xD125#16, 0xF265#16] := by decide

/-! ### One cycle -/

/-- The reset state with some registers set. -/
def withRegs (l : List (Nibble × Byte)) (s : State := State.reset) : State := l.foldl (fun s p => s.setV p.1 p.2) s

/-- The reset state with some bytes stored from `a`. -/
def withBytes (a : Nat) (l : List Byte) (s : State := State.reset) : State := { s with mem := s.mem.writeBlock a l }

/-- Whether the one step that runs the word `w` in `s` answers a next state with the property `p`. -/
def runs (s : State) (w : Nat) (p : State → Bool) : Bool :=
  match step (s.withFetchWord 16 w) with
  | .next t => p t
  | .fault _ => false
  | .refused _ => false

/-- L2.1 #1. -/
theorem test_cycle_ticks_timer : runs { State.reset with dt := 5 } 0x6007
    (fun t => t.getV 0 == 7 && t.pc == 0x202 && t.dt == 4) = true := by decide
/-- L2.1 #2. -/
theorem test_fetch_at_last_address : runs { State.reset with pc := 0xFFE } 0x1200 (fun t => t.pc == 0x200) = true := by
  decide
/-- L2.1 #3: the timer does not tick. -/
theorem test_fetch_at_fff_faults : (match step { State.reset with pc := 0xFFF, dt := 3 } with
    | .next t => t.status == .faulted (.fetchOutOfRange 0xFFF) && t.pc == 0xFFF && t.dt == 3
    | _ => false) = true := by decide
/-- L2.1 #5. -/
theorem test_odd_pc_is_fetched : runs { State.reset with pc := 0x201 } 0x60AB
    (fun t => t.getV 0 == 0xAB && t.pc == 0x203) = true := by decide
/-- L2.1 #7. -/
theorem test_timer_stays_at_zero : runs State.reset 0x0000 (fun t => t.pc == 0x202 && t.dt == 0) = true := by decide

/-! ### Flow -/

/-- L2.2 #1, one pixel on. -/
theorem test_cls : runs { State.reset with disp := State.reset.disp.set 3 true } 0x00E0
    (fun t => !t.disp[3] && t.pc == 0x202) = true := by decide
/-- L2.2 #3. -/
theorem test_ret : runs { State.reset with sp := 2, stack := State.reset.stack.set 1 0x0310 } 0x00EE
    (fun t => t.sp == 1 && t.pc == 0x310 && t.stack[1] == 0x310) = true := by decide
/-- L2.2 #4. -/
theorem test_ret_underflow : runs State.reset 0x00EE
    (fun t => t.status == .faulted (.stackUnderflow 0x200 0x00EE) && t.pc == 0x200) = true := by decide
/-- L2.2 #8. -/
theorem test_nop_family_0 : runs State.reset 0x0123 (fun t => t.pc == 0x202) = true := by decide
/-- L2.2 #9. -/
theorem test_jp : runs State.reset 0x1ABC (fun t => t.pc == 0xABC) = true := by decide
/-- L2.2 #13. -/
theorem test_call_last_entry : runs { State.reset with pc := 0x400, sp := 15 } 0x2500
    (fun t => t.stack[15] == 0x0402 && t.sp == 16 && t.pc == 0x500) = true := by decide
/-- L2.2 #14. -/
theorem test_call_overflow : runs { State.reset with sp := 16 } 0x2500
    (fun t => t.status == .faulted (.stackOverflow 0x200 0x2500) && t.sp == 16 && t.pc == 0x200) = true := by decide

/-! ### Skips -/

/-- L2.3 #1. -/
theorem test_se_kk_skips : runs (withRegs [(2, 0x0A)]) 0x320A (fun t => t.pc == 0x204) = true := by decide
/-- L2.3 #2. -/
theorem test_se_kk_does_not_skip : runs (withRegs [(2, 0x0B)]) 0x320A (fun t => t.pc == 0x202) = true := by decide
/-- L2.3 #3. -/
theorem test_sne_kk_skips : runs (withRegs [(2, 0x0B)]) 0x420A (fun t => t.pc == 0x204) = true := by decide
/-- L2.3 #7. -/
theorem test_se_registers_skips : runs (withRegs [(1, 0x33), (2, 0x33)]) 0x5121 (fun t => t.pc == 0x204) = true := by
  decide
/-- L2.3 #10. -/
theorem test_sne_same_register : runs State.reset 0x933F (fun t => t.pc == 0x202) = true := by decide

/-! ### Immediate and ALU -/

/-- L2.4 #1. -/
theorem test_ld_kk_vf : runs State.reset 0x6FAA (fun t => t.getV 0xF == 0xAA) = true := by decide
/-- L2.4 #2. -/
theorem test_add_kk_no_carry : runs (withRegs [(0, 1), (0xF, 7)]) 0x70FF (fun t => t.getV 0 == 0 && t.getV 0xF == 7) =
    true := by decide
/-- L2.5 #1. -/
theorem test_ld_register : runs (withRegs [(1, 0x42)]) 0x8010 (fun t => t.getV 0 == 0x42) = true := by decide
/-- L2.5 #2. -/
theorem test_or_keeps_vf : runs (withRegs [(0, 0x0F), (1, 0xF0), (0xF, 0x55)]) 0x8011
    (fun t => t.getV 0 == 0xFF && t.getV 0xF == 0x55) = true := by decide
/-- L2.5 #3. -/
theorem test_and : runs (withRegs [(0, 0x3C), (1, 0x0F)]) 0x8012 (fun t => t.getV 0 == 0x0C) = true := by decide
/-- L2.5 #4. -/
theorem test_xor : runs (withRegs [(0, 0xFF), (1, 0x0F)]) 0x8013 (fun t => t.getV 0 == 0xF0) = true := by decide
/-- L2.5 #6. -/
theorem test_add_carries : runs (withRegs [(0, 0xC8), (1, 0x64)]) 0x8014
    (fun t => t.getV 0 == 0x2C && t.getV 0xF == 1) = true := by decide
/-- L2.5 #8. -/
theorem test_add_to_vf_keeps_the_flag : runs (withRegs [(0xF, 0x10), (1, 0xF0)]) 0x8F14
    (fun t => t.getV 0xF == 1) = true := by decide
/-- L1.5, last vector. -/
theorem test_sub_borrows : runs (withRegs [(0, 5), (1, 7)]) 0x8015 (fun t => t.getV 0 == 0xFE && t.getV 0xF == 0) =
    true := by decide
/-- L2.5 #11. -/
theorem test_sub_equal : runs (withRegs [(0, 5)]) 0x8005 (fun t => t.getV 0 == 0 && t.getV 0xF == 1) = true := by decide
/-- L2.5 #14. -/
theorem test_subn : runs (withRegs [(0, 5), (1, 7)]) 0x8017 (fun t => t.getV 0 == 2 && t.getV 0xF == 1) = true := by
  decide
/-- L2.5 #12. -/
theorem test_subn_borrows : runs (withRegs [(0, 1)]) 0x8017 (fun t => t.getV 0 == 0xFF && t.getV 0xF == 0) = true := by
  decide
/-- L2.5 #17. -/
theorem test_shr_ignores_vy : runs (withRegs [(0, 4), (1, 0xFF)]) 0x8016 (fun t => t.getV 0 == 2 && t.getV 0xF == 0) =
    true := by decide
/-- L2.5 #18. -/
theorem test_shr_vf : runs (withRegs [(0xF, 3)]) 0x8F06 (fun t => t.getV 0xF == 1) = true := by decide
/-- L2.5 #21. -/
theorem test_shl : runs (withRegs [(0, 0x81)]) 0x800E (fun t => t.getV 0 == 2 && t.getV 0xF == 1) = true := by decide
/-- L2.5 #23. -/
theorem test_nop_family_8 : runs (withRegs [(0, 0x12), (0xF, 0x34)]) 0x8018
    (fun t => t.getV 0 == 0x12 && t.getV 0xF == 0x34 && t.pc == 0x202) = true := by decide

/-! ### Index, computed jump, random -/

/-- L2.6 #1. -/
theorem test_ld_i : runs State.reset 0xAFFF (fun t => t.i == 0x0FFF) = true := by decide
/-- L2.6 #5. -/
theorem test_jp_v0_not_masked : runs (withRegs [(0, 0xFF)]) 0xBFFF (fun t => t.pc == 0x10FE) = true := by decide
/-- R202: a byte is consumed; its value is free. -/
theorem test_rnd_consumes_a_byte : runs State.reset 0xC30F (fun t => t.rngDraws == 1 && t.pc == 0x202) = true := by decide

/-! ### Draw -/

/-- L2.7 #4, the pixels (62,31) and (5,31) of the wrapped row and (61,31), (6,31) beside it. -/
theorem test_drw_wraps : runs { withRegs [(0, 0x3E), (1, 0x1F)] (withBytes 0x300 [0xFF]) with i := 0x300 } 0xD011
    (fun t => t.disp.pixel 62 31 && t.disp.pixel 5 31 && !t.disp.pixel 61 31 && !t.disp.pixel 6 31 &&
      t.getV 0xF == 0) = true := by decide +kernel
/-- L2.7 #6. -/
theorem test_drw_collides : runs { withBytes 0x300 [0x80] with i := 0x300, disp := State.reset.disp.set 0 true } 0xD011
    (fun t => !t.disp.pixel 0 0 && t.getV 0xF == 1) = true := by decide +kernel

/-! ### Keys -/

/-- L2.8 #1. -/
theorem test_skp_skips : runs { withRegs [(5, 3)] with keys := State.reset.keys.set 3 true } 0xE59E
    (fun t => t.pc == 0x204) = true := by decide
/-- L2.8 #6. -/
theorem test_skp_above_fifteen : runs (withRegs [(0, 0x10)]) 0xE09E
    (fun t => t.status == .faulted (.keyIndexOutOfRange 0x200 0xE09E 0x10)) = true := by decide
/-- L2.8 #3. -/
theorem test_sknp_skips : runs (withRegs [(5, 3)]) 0xE5A1 (fun t => t.pc == 0x204) = true := by decide
/-- L2.8 #8. -/
theorem test_nop_family_E : runs (withRegs [(0, 0xFF)]) 0xE000 (fun t => t.pc == 0x202 && t.status == .running) = true := by
  decide
/-- L2.10 #2. -/
theorem test_key_wait_lowest : runs { State.reset with keys := (State.reset.keys.set 5 true).set 2 true } 0xF00A
    (fun t => t.getV 0 == 2 && t.pc == 0x202) = true := by decide
/-- L2.10 #3, with DT = 3 as in #1. -/
theorem test_key_wait_ignores_fifteen : runs { State.reset with keys := State.reset.keys.set 15 true, dt := 3 } 0xF00A
    (fun t => t.pc == 0x200 && t.dt == 2) = true := by decide

/-! ### Timer and miscellaneous -/

/-- L2.9 #1. -/
theorem test_ld_vx_dt : runs { State.reset with dt := 5 } 0xF307 (fun t => t.getV 3 == 5 && t.dt == 4) = true := by decide
/-- L2.9 #3. -/
theorem test_ld_dt_vx : runs (withRegs [(3, 5)]) 0xF315 (fun t => t.dt == 4) = true := by decide
/-- L2.9 #8. -/
theorem test_add_i_wraps : runs { withRegs [(0, 1)] with i := 0xFFFF } 0xF01E
    (fun t => t.i == 0 && t.getV 0xF == 0) = true := by decide
/-- L2.9 #13. -/
theorem test_ld_f_not_masked : runs (withRegs [(0, 0xFF)]) 0xF029 (fun t => t.i == 0x054B) = true := by decide
/-- L2.9 #14. -/
theorem test_ld_b : runs { withRegs [(3, 0xFE)] with i := 0x300 } 0xF333
    (fun t => t.mem.readBlock 0x300 3 == [2, 5, 4]) = true := by decide
/-- L2.9 #19. -/
theorem test_ld_b_past_memory : runs { State.reset with i := 0xFFE } 0xF033
    (fun t => t.status == .faulted (.memoryOutOfRange 0x200 0xF033 0x1000)) = true := by decide
/-- L2.9 #20. -/
theorem test_block_store : runs { withRegs [(0, 1), (1, 2), (2, 3)] with i := 0x400 } 0xF255
    (fun t => t.mem.readBlock 0x400 4 == [1, 2, 3, 0] && t.i == 0x400) = true := by decide
/-- L2.9 #23. -/
theorem test_block_store_past_memory : runs { State.reset with i := 0xFFFF } 0xF055
    (fun t => t.status == .faulted (.memoryOutOfRange 0x200 0xF055 0xFFFF)) = true := by decide
/-- L2.9 #24. -/
theorem test_block_load : runs { withBytes 0x300 [2, 5, 4, 9] with i := 0x300 } 0xF265
    (fun t => t.getV 0 == 2 && t.getV 1 == 5 && t.getV 2 == 4 && t.getV 3 == 0 && t.i == 0x300) = true := by decide
/-- L2.9 #27. -/
theorem test_nop_family_F : runs State.reset 0xF318 (fun t => t.pc == 0x202 && t.dt == 0) = true := by decide

/-! ### Memory and the host port -/

/-- R51: glyph 0xA at 0x082. -/
theorem test_glyph_A : State.reset.mem.readBlock 0x082 5 = [0xF0, 0x90, 0xF0, 0x90, 0x90] := by decide
/-- The canonical form: writing the reset byte back leaves nothing listed. -/
theorem test_write_back_reset_byte : ((State.reset.mem.write 0x050 0x12).write 0x050 0xF0) = [] := by decide
theorem test_unsorted_memory_refused : Memory.wf [(0x300, 1), (0x200, 1)] = false := by decide
/-- R343: an image of no bytes leaves memory as reset. -/
theorem test_empty_load : (match hostStep (.load []) Session.create with
    | .next p => p.loaded && p.engine.mem == [] | _ => false) = true := by decide
/-- R322. -/
theorem test_key_sixteen_refused : (match hostStep (.keyDown 16) Session.create with
    | .refused r => r == .keyNumberOutOfRange 16 | _ => false) = true := by decide

/-! ### Witnesses: states and operands that meet the hypotheses of each obligation -/

/-- A Running engine at the word `w`, with one byte in DT. -/
def engineAt (w : Nat) (s : State := State.reset) : State := { s with dt := 1 }.withFetchWord 16 w

theorem witness_DecodeOfEncodeIsTheInstruction :
    Instr.wellFormed (.nopFamily8 0#4 0#4 8#4) = true ∧ Instr.wellFormed (.nopFamilyF 0#4 0x66#8) = true := by decide

/-- PC = 0xFFE and PC = 0xFFF, where the clauses meet, and a Faulted engine. -/
theorem witness_StepRunsTheDecodedInstruction :
    (let s := { State.reset with pc := 0xFFE, mem := State.reset.mem.writeBlock 0xFFE [0x12, 0x00] }
     Instr.wellFormed (.jp 0x200#12) = true ∧ s.status = .running ∧ s.pc.toNat ≤ 0xFFE ∧
      wordOfBytes (s.mem.read s.pc.toNat) (s.mem.read (s.pc.toNat + 1)) = encode (.jp 0x200#12)) ∧
    (let s := { State.reset with pc := 0xFFF }
     s.status = .running ∧ 0xFFE < s.pc.toNat) ∧
    (let s := { State.reset with status := .faulted (.romTooLarge 3585) }
     s.status = .faulted (.romTooLarge 3585)) := by decide

theorem witness_FaultedEngineStaysAsItIs :
    ({ State.reset with status := .faulted (.romTooLarge 3585) } : State).status = .faulted (.romTooLarge 3585) := rfl

/-- One engine for each clause: `LD DT,V0` with V0 = 0, a no-op at DT = 1, `LD V3,DT`. -/
theorem witness_TimerTicksInEveryCompletedCycle :
    (∀ w ∈ [0xF015, 0x0000, 0xF307],
      (engineAt w).status = .running ∧ (engineAt w).fetch = some (BitVec.ofNat 16 w) ∧
      runs (engineAt w) w (fun t => t.status == .running) = true) ∧
    decode 0xF015#16 = .ldDtVx 0#4 ∧ decode 0x0000#16 = .nopFamily0 0#12 ∧ decode 0xF307#16 = .ldVxDt 3#4 := by decide

/-- A fault of the fetch and one of an instruction. -/
theorem witness_FaultingCycleChangesOnlyStatus :
    (engineAt 0x00EE).status = .running ∧
    step (engineAt 0x00EE) = .next { engineAt 0x00EE with status := .faulted (.stackUnderflow 0x200 0x00EE) } ∧
    step { State.reset with pc := 0xFFF } =
      .next { State.reset with pc := 0xFFF, status := .faulted (.fetchOutOfRange 0xFFF) } := ⟨rfl, rfl, rfl⟩

/-- Key 15 alone is pressed. -/
theorem witness_KeyWaitNeverEndsWithoutAKey :
    let s := engineAt 0xF30A { State.reset with keys := State.reset.keys.set 15 true }
    s.status = .running ∧ s.fetch = some (encode (.ldVxK 3#4)) ∧
      ∀ k : Fin 16, k.val < 15 → s.keys.get k = false := by decide

/-- The reset state meets the invariant; the word at its PC is a no-op. -/
theorem witness_EveryStepKeepsTheInvariant : State.reset.Inv ∧ ∃ t, step State.reset = .next t :=
  ⟨⟨by decide, by decide, by decide, by decide, trivial⟩, _, rfl⟩

theorem witness_EveryCycleOfALegalEngineAnswersNext : State.reset.Inv := witness_EveryStepKeepsTheInvariant.1

/-- Each event in a session that answers it. -/
theorem witness_EveryHostEventKeepsTheInvariant :
    Session.create.engine.Inv ∧ (Session.create.loaded = false → Session.create.engine.status = .running) ∧
    (∃ q, hostStep (.load [0x12, 0x00]) Session.create = .next q) ∧ (∃ q, hostStep (.keyDown 15) Session.create = .next q) ∧
    (∃ q, hostStep (.keyUp 0) Session.create = .next q) ∧ ∃ q, hostStep .cycle ⟨State.reset, true⟩ = .next q :=
  ⟨witness_EveryStepKeepsTheInvariant.1, fun _ => rfl, ⟨_, rfl⟩, ⟨_, rfl⟩, ⟨_, rfl⟩, _, rfl⟩

/-- An instruction for each clause, and a host event that is none of the keys'. -/
theorem witness_KeysAreWrittenByTheHostAndReadByThreeInstructions :
    (∃ t, exec (.skp 0#4) State.reset = .next t) ∧
    ((∀ x, Instr.jp 0#12 ≠ .skp x) ∧ (∀ x, Instr.jp 0#12 ≠ .sknp x) ∧ (∀ x, Instr.jp 0#12 ≠ .ldVxK x)) ∧
    (∀ k, HostEvent.cycle ≠ .keyDown k) ∧ (∀ k, HostEvent.cycle ≠ .keyUp k) ∧
    ∃ q, hostStep .cycle ⟨State.reset, true⟩ = .next q :=
  ⟨⟨_, rfl⟩, ⟨nofun, nofun, nofun⟩, nofun, nofun, _, rfl⟩

/-- For DisplayIsWrittenOnlyByClsAndDrw, MemoryIsWrittenOnlyByBcdAndBlockStore, IndexIsWrittenByThreeInstructions,
StackIsChangedOnlyByCallAndRet and OnlyRndDrawsRandomBytes: `JP` is none of their writers. -/
theorem witness_whole_machine_frames :
    (∃ t, exec (.jp 0x200#12) State.reset = .next t) ∧
    (∀ x, Instr.jp 0x200#12 ≠ .cls x) ∧ (∀ x y n, Instr.jp 0x200#12 ≠ .drw x y n) ∧
    (∀ x, Instr.jp 0x200#12 ≠ .ldBVx x) ∧ (∀ x, Instr.jp 0x200#12 ≠ .ldMemVx x) ∧
    (∀ nnn, Instr.jp 0x200#12 ≠ .ldINnn nnn) ∧ (∀ x, Instr.jp 0x200#12 ≠ .addIVx x) ∧
    (∀ x, Instr.jp 0x200#12 ≠ .ldFVx x) ∧ (∀ nnn, Instr.jp 0x200#12 ≠ .call nnn) ∧
    (∀ x, Instr.jp 0x200#12 ≠ .ret x) ∧ (∀ x kk, Instr.jp 0x200#12 ≠ .rndVxKk x kk) :=
  ⟨⟨_, rfl⟩, nofun, nofun, nofun, nofun, nofun, nofun, nofun, nofun, nofun, nofun⟩

/-- `CALL` at SP = 15 leaves entry 0, and `RND` draws. -/
theorem witness_StackIsChangedOnlyByCallAndRet_and_OnlyRndDrawsRandomBytes :
    (∃ t, exec (.call 0x200#12) { State.reset with sp := 15 } = .next t) ∧ (0 : Fin 16).val ≠ (15#8).toNat ∧
    ∃ t, exec (.rndVxKk 0#4 0#8) State.reset = .next t := ⟨⟨_, rfl⟩, by decide, _, rfl⟩

/-- An add with carry changes VF. -/
theorem witness_FlagRegisterIsWrittenOnlyByItsWriters :
    ∃ t, exec (.addVxVy 0#4 1#4) (withRegs [(0, 0xFF), (1, 1)]) = .next t ∧
      t.getV 0xF#4 ≠ (withRegs [(0, 0xFF), (1, 1)]).getV 0xF#4 := ⟨_, rfl, by decide⟩

/-- `LD V0, 5` is none of the instructions that adjust PC. -/
theorem witness_OtherInstructionsLeavePcAtTheNextWord :
    let i := Instr.ldVxKk 0#4 5#8
    State.reset.status = .running ∧ (∃ t, exec i State.reset = .next t ∧ t.status = .running) ∧
    (∀ x, i ≠ .ret x) ∧ (∀ nnn, i ≠ .jp nnn) ∧ (∀ nnn, i ≠ .call nnn) ∧ (∀ x kk, i ≠ .seVxKk x kk) ∧
    (∀ x kk, i ≠ .sneVxKk x kk) ∧ (∀ x y n, i ≠ .seVxVy x y n) ∧ (∀ x y n, i ≠ .sneVxVy x y n) ∧
    (∀ nnn, i ≠ .jpV0Nnn nnn) ∧ (∀ x, i ≠ .skp x) ∧ (∀ x, i ≠ .sknp x) ∧ (∀ x, i ≠ .ldVxK x) :=
  ⟨rfl, ⟨_, rfl, rfl⟩, nofun, nofun, nofun, nofun, nofun, nofun, nofun, nofun, nofun, nofun, nofun⟩

/-- Two engines that differ in the stale entry 1, at SP = 1, and a `RET`. -/
theorem witness_StaleStackEntriesAreNeverObserved :
    let s := { State.reset with sp := 1 }
    s.AgreeOnLiveStack { s with stack := s.stack.set 1 0x300#16 } ∧ ∃ t, exec (.ret 0#4) s = .next t :=
  ⟨⟨rfl, by decide⟩, _, rfl⟩

/-- SP = 1 and SP = 16. -/
theorem witness_RetPopsTheReturnAddress :
    ({ State.reset with sp := 1 } : State).sp.toNat = (0 : Fin 16).val + 1 ∧
    ({ State.reset with sp := 16 } : State).sp.toNat = (15 : Fin 16).val + 1 := by decide

theorem witness_RetOnAnEmptyStackFaults : State.reset.sp = 0#8 := rfl

/-- SP = 17. -/
theorem witness_RetAboveSixteenStops : 16 < ({ State.reset with sp := 17 } : State).sp.toNat := by decide

/-- SP = 0 and SP = 15. -/
theorem witness_CallPushesTheReturnAddress :
    State.reset.sp.toNat = (0 : Fin 16).val ∧ ({ State.reset with sp := 15 } : State).sp.toNat = (15 : Fin 16).val := by
  decide

/-- SP = 16. -/
theorem witness_CallOnAFullStackFaults : 16 ≤ ({ State.reset with sp := 16 } : State).sp.toNat := by decide

/-- A word of each of the three families, the neighbours 0xF, 0x9F and 0x18 of selecting values. -/
theorem witness_UnrecognisedSecondaryOpcodesAreNoOps :
    (∀ w ∈ [0x800F, 0xE09F, 0xF318],
      (engineAt w).status = .running ∧ (engineAt w).fetch = some (BitVec.ofNat 16 w)) ∧
    ((0x800F#16).extractLsb' 12 4 = 0x8#4 ∧
      (0x800F#16).extractLsb' 0 4 ∈ [0x8#4, 0x9#4, 0xA#4, 0xB#4, 0xC#4, 0xD#4, 0xF#4]) ∧
    ((0xE09F#16).extractLsb' 12 4 = 0xE#4 ∧ (0xE09F#16).extractLsb' 0 8 ∉ [0x9E#8, 0xA1#8]) ∧
    ((0xF318#16).extractLsb' 12 4 = 0xF#4 ∧
      (0xF318#16).extractLsb' 0 8 ∉ [0x07#8, 0x0A#8, 0x15#8, 0x1E#8, 0x29#8, 0x33#8, 0x55#8, 0x65#8]) := by decide

/-- The word 0x00E1, beside 0x00E0. -/
theorem witness_FamilyZeroOtherWordsAreNoOps :
    (engineAt 0x00E1).status = .running ∧ (engineAt 0x00E1).fetch = some 0x00E1#16 ∧
    (0x00E1#16).extractLsb' 12 4 = 0x0#4 ∧ (0x00E1#16).extractLsb' 0 8 ≠ 0xE0#8 ∧
    (0x00E1#16).extractLsb' 0 8 ≠ 0xEE#8 := by decide

/-- The last key number. -/
theorem witness_KeySkipsTestTheNamedKey : ((withRegs [(5, 15)]).getV 5#4).toNat = (15 : Fin 16).val := by decide

/-- The first number that is no key. -/
theorem witness_KeySkipsFaultAboveFifteen : 0xF < ((withRegs [(5, 16)]).getV 5#4).toNat := by decide

/-- For LoadImmediateWritesKk, AddImmediateWrapsWithoutFlag, LogicWritesOnlyTheDestination, AddSetsCarry,
SubtractsSetNotBorrow, ShiftsSetTheBitShiftedOut, RndMasksTheDrawnByte and TimerIsReadAndWritten: a register that is not
the destination, nor VF, and a destination that is not VF. -/
theorem witness_register_frames : (0x2#4) ≠ 0x1#4 ∧ (0x2#4) ≠ 0xF#4 ∧ (0x1#4) ≠ 0xF#4 := by decide

/-- n = 0 with I = 0xFFFF, and a sprite that ends at 0xFFF. -/
theorem witness_DrwXorsTheSpriteAndReportsCollision :
    ((0#4) = 0#4 ∨ ({ State.reset with i := 0xFFFF } : State).i.toNat + (0#4).toNat ≤ 0x1000) ∧
    ((15#4) = 0#4 ∨ ({ State.reset with i := 0xFF1 } : State).i.toNat + (15#4).toNat ≤ 0x1000) := by decide

theorem witness_DrwTwiceRestoresTheDisplay :
    let s := { State.reset with i := 0x050 }
    s.status = .running ∧ (0#4) ≠ 0xF#4 ∧ (1#4) ≠ 0xF#4 ∧
    ∃ t, exec (.drw 0#4 1#4 5#4) s = .next t ∧ t.status = .running :=
  ⟨rfl, by decide, by decide, _, rfl, rfl⟩

/-- For each clause the first I whose range leaves memory. -/
theorem witness_RangesPastMemoryFault :
    ((15#4) ≠ 0#4 ∧ 0x1000 < ({ State.reset with i := 0xFF2 } : State).i.toNat + (15#4).toNat) ∧
    0x1000 < ({ State.reset with i := 0xFFE } : State).i.toNat + 3 ∧
    0xFFF < ({ State.reset with i := 0xFF1 } : State).i.toNat + (15#4).toNat := by decide

/-- For each range the last I that fits, and addresses just outside it. -/
theorem witness_BcdStoresThreeDigits :
    State.reset.mem.wf = true ∧ ({ State.reset with i := 0xFFD } : State).i.toNat + 2 ≤ 0xFFF ∧
    (0xFFC < 0xFFD ∨ 0xFFD + 2 < 0xFFC) := by decide

theorem witness_BlockStoreWritesRegistersZeroToX :
    State.reset.mem.wf = true ∧ ({ State.reset with i := 0xFF0 } : State).i.toNat + (15#4).toNat ≤ 0xFFF ∧
    (15#4).toNat ≤ (15#4).toNat ∧ (0xFEF < 0xFF0 ∨ 0xFF0 + 15 < 0xFEF) := by decide

theorem witness_BlockLoadReadsRegistersZeroToX :
    ({ State.reset with i := 0xFFF } : State).i.toNat + (0#4).toNat ≤ 0xFFF ∧ (0#4).toNat ≤ (0#4).toNat ∧
    (0#4).toNat < (1#4).toNat := by decide

/-- For each store the last I that fits, and the last address that a fetch can start at. -/
theorem witness_StoredBytesAreFetchedAtOnce :
    State.reset.mem.wf = true ∧ ({ State.reset with i := 0xFF0 } : State).i.toNat + (15#4).toNat ≤ 0xFFF ∧
    ({ State.reset with i := 0xFFD } : State).i.toNat + 2 ≤ 0xFFF ∧ 0xFFE ≤ 0xFFE := by decide

/-- R53: after `LD [I],V0` with V0 = 0xAB at I = 0x300, the fetches at 0x300 and at 0x2FF. -/
theorem test_word_with_one_stored_byte : runs { withRegs [(0, 0xAB)] with i := 0x300 } 0xF055
    (fun t => { t with pc := 0x300 }.fetch == some 0xAB00#16 && { t with pc := 0x2FF }.fetch == some 0x00AB#16) = true := by
  decide

/-- Keys 14 and 15 pressed, so that 14 is the lowest; then key 15 alone. -/
theorem witness_KeyWaitTakesTheLowestKeyOrRewinds :
    (let s := { State.reset with keys := (State.reset.keys.set 14 true).set 15 true }
     (14 : Fin 16).val < 15 ∧ s.keys.get 14 = true ∧ ∀ j : Fin 16, j.val < (14 : Fin 16).val → s.keys.get j = false) ∧
    (let s := { State.reset with keys := State.reset.keys.set 15 true }
     ∀ k : Fin 16, k.val < 15 → s.keys.get k = false) := by decide

/-- Addresses just outside the glyph table. -/
theorem witness_ResetMemoryIsTheGlyphTable :
    (0x04F < 0x1000 ∧ (0x04F < 0x050 ∨ 0x09F < 0x04F)) ∧ (0x0A0 < 0x1000 ∧ (0x0A0 < 0x050 ∨ 0x09F < 0x0A0)) := by decide

/-- The longest image that fits, and one byte more. -/
theorem witness_LoadPlacesTheImageOrFaults :
    State.reset.mem.wf = true ∧ (List.replicate 3584 0x00#8).length ≤ 3584 ∧
    3584 < (List.replicate 3585 0x00#8).length := by
  rw [List.length_replicate, List.length_replicate]; decide

theorem witness_HostLoadsOnceBeforeTheFirstCycle : ∃ t, step State.reset = .next t := ⟨_, rfl⟩

/-- The last key number and the first number that is none. -/
theorem witness_KeyEventsWriteOneKey : (15 : Nat) < 16 ∧ (14 : Fin 16) ≠ 15 := by decide

/-- Key 15 is pressed and released between cycles, and key 0 released. -/
theorem witness_KeyWaitNeverEndsWhateverKeyFifteenDoes :
    let s := engineAt 0xF30A
    s.status = .running ∧ s.fetch = some (encode (.ldVxK 3#4)) ∧ (∀ k : Fin 16, k.val < 15 → s.keys.get k = false) ∧
      ∀ e ∈ [HostEvent.keyDown 15, .cycle, .keyUp 15, .keyUp 0, .cycle], e.pressesOnlyFifteen :=
  ⟨by decide, by decide, by decide, by simp [HostEvent.pressesOnlyFifteen]⟩

end Sys2Proof.Tests
end

/-! # State family: who writes and who reads which part of the state, and the invariant (10_state.md) -/

section
/-! ## A word is the encoding of the instruction it decodes to -/

namespace Sys2Proof

/-- A word of family `op` by its fields x and kk. -/
theorem packXKk_of_fieldOp {w : Word} {op : Nibble} (h : fieldOp w = op) :
    packXKk op (fieldX w) (fieldKk w) = w := h ▸ packXKk_fields w

/-- A word of family `op` by its fields x, y and n. -/
theorem packXYN_of_fieldOp {w : Word} {op : Nibble} (h : fieldOp w = op) :
    packXYN op (fieldX w) (fieldY w) (fieldN w) = w := h ▸ packXYN_fields w

/-- A word of family `op` by its field nnn. -/
theorem packNnn_of_fieldOp {w : Word} {op : Nibble} (h : fieldOp w = op) : packNnn op (fieldNnn w) = w :=
  h ▸ packNnn_fields w

/-- Family 0 keeps every bit of its word (R75). -/
theorem encode_decodeFamily0 {w : Word} (h : fieldOp w = 0x0#4) : encode (decodeFamily0 w) = w := by
  have hw := packXKk_of_fieldOp h
  unfold decodeFamily0
  split_ifs with hkk hkk
  case neg => exact packNnn_of_fieldOp h
  all_goals rw [hkk] at hw; exact hw

/-- Family 8 keeps every bit of its word (R76). -/
theorem encode_decodeFamily8 {w : Word} (h : fieldOp w = 0x8#4) : encode (decodeFamily8 w) = w := by
  have hw := packXYN_of_fieldOp h
  unfold decodeFamily8
  split_ifs with hn hn hn hn hn hn hn hn hn
  case neg => exact hw
  all_goals rw [hn] at hw; exact hw

/-- Family E keeps every bit of its word (R77). -/
theorem encode_decodeFamilyE {w : Word} (h : fieldOp w = 0xE#4) : encode (decodeFamilyE w) = w := by
  have hw := packXKk_of_fieldOp h
  unfold decodeFamilyE
  split_ifs with hkk hkk
  case neg => exact hw
  all_goals rw [hkk] at hw; exact hw

/-- Family F keeps every bit of its word (R78). -/
theorem encode_decodeFamilyF {w : Word} (h : fieldOp w = 0xF#4) : encode (decodeFamilyF w) = w := by
  have hw := packXKk_of_fieldOp h
  unfold decodeFamilyF
  split_ifs with hkk hkk hkk hkk hkk hkk hkk hkk
  case neg => exact hw
  all_goals rw [hkk] at hw; exact hw

/-- The instruction of a word encodes to the word, bit for bit (R74, log entry 7). -/
theorem encode_decode (w : Word) : encode (decode w) = w := by
  have hop {k : Nat} (h : (fieldOp w).toNat = k) : fieldOp w = BitVec.ofNat 4 k := by
    rw [← h, BitVec.ofNat_toNat, BitVec.setWidth_eq]
  have hlt := (fieldOp w).isLt
  unfold decode
  split
  case h_1 h => exact encode_decodeFamily0 (hop h)
  case h_9 h => exact encode_decodeFamily8 (hop h)
  case h_15 h => exact encode_decodeFamilyE (hop h)
  case h_16 =>
    have h : (fieldOp w).toNat = 15 := by simp only [imp_false] at *; omega
    exact encode_decodeFamilyF (hop h)
  case h_2 h | h_3 h | h_11 h | h_12 h => exact packNnn_of_fieldOp (hop h)
  case h_4 h | h_5 h | h_7 h | h_8 h | h_13 h => exact packXKk_of_fieldOp (hop h)
  case h_6 h | h_10 h | h_14 h => exact packXYN_of_fieldOp (hop h)

end Sys2Proof
end

section
/-! ## What an execute step can write -/

namespace Sys2Proof.Machine

/-! ### `RET` and `CALL`, by SP (R121, R124) -/

/-- `RET` with SP = 0 (R121). -/
theorem exec_ret_empty {x : Nibble} {s : State} (h : s.sp = 0#8) :
    exec (.ret x) s = .next (s.stoppedWith (.stackUnderflow (s.pc - 2) (encode (.ret x)))) :=
  if_pos h

/-- `RET` with SP in 1..16 (R121). -/
theorem exec_ret_pop {x : Nibble} {s : State} {j : Fin 16} (h : s.sp.toNat = j.val + 1) :
    exec (.ret x) s = .next { s with sp := s.sp - 1, pc := s.stack.get j } := by
  have hne : s.sp ≠ 0#8 := fun e => by simp [e] at h
  have hj : s.stackEntry? (s.sp.toNat - 1) = some (s.stack.get j) := by
    simp [State.stackEntry?, h, Vector.get_eq_getElem]
  simp only [exec, execRet, if_neg hne, hj]

/-- `RET` with an SP that has no entry below it (log entry 5). -/
theorem exec_ret_absent {x : Nibble} {s : State} (h : 16 < s.sp.toNat) :
    exec (.ret x) s = .fault (.stackEntryAbsent s.sp) := by
  have hne : s.sp ≠ 0#8 := fun e => by simp [e] at h
  have hj : s.stackEntry? (s.sp.toNat - 1) = none := by simp [State.stackEntry?]; omega
  simp only [exec, execRet, if_neg hne, hj]

/-- `CALL` with a free stack entry (R124). -/
theorem exec_call_free {nnn : Addr} {s : State} (h : s.sp.toNat < 16) :
    exec (.call nnn) s = .next { s.push h with pc := addrOperand nnn } :=
  dif_pos h

/-- `CALL` with a full stack (R124). -/
theorem exec_call_full {nnn : Addr} {s : State} (h : 16 ≤ s.sp.toNat) :
    exec (.call nnn) s = .next (s.stoppedWith (.stackOverflow (s.pc - 2) (encode (.call nnn)))) :=
  dif_neg (by omega)

/-- SP is 0, one above the index of a stack entry, or above 16 (R27, R28). -/
theorem State.sp_cases (s : State) :
    s.sp = 0#8 ∨ (∃ j : Fin 16, s.sp.toNat = j.val + 1) ∨ 16 < s.sp.toNat := by
  rcases Nat.eq_zero_or_pos s.sp.toNat with h0 | hpos
  · exact .inl (BitVec.eq_of_toNat_eq h0)
  · by_cases h16 : 16 < s.sp.toNat
    · exact .inr (.inr h16)
    · exact .inr (.inl ⟨⟨s.sp.toNat - 1, by omega⟩, by simp; omega⟩)

/-! ### The instructions by what they write -/

/-- The instructions that write one result to the register they name, and no flag; `RND`, which also draws, and
`LD Vx,[I]` apart. -/
inductive WritesRegister : Instr → Nibble → Prop where
  | ldVxKk (x kk) : WritesRegister (.ldVxKk x kk) x
  | addVxKk (x kk) : WritesRegister (.addVxKk x kk) x
  | ldVxVy (x y) : WritesRegister (.ldVxVy x y) x
  | orVxVy (x y) : WritesRegister (.orVxVy x y) x
  | andVxVy (x y) : WritesRegister (.andVxVy x y) x
  | xorVxVy (x y) : WritesRegister (.xorVxVy x y) x
  | ldVxDt (x) : WritesRegister (.ldVxDt x) x
  | ldVxK (x) : WritesRegister (.ldVxK x) x

/-- The instructions of family 8 that write a result and then a flag (R170). -/
inductive WritesResultAndFlag : Instr → Prop where
  | addVxVy (x y) : WritesResultAndFlag (.addVxVy x y)
  | subVxVy (x y) : WritesResultAndFlag (.subVxVy x y)
  | shrVx (x y) : WritesResultAndFlag (.shrVx x y)
  | subnVxVy (x y) : WritesResultAndFlag (.subnVxVy x y)
  | shlVx (x y) : WritesResultAndFlag (.shlVx x y)

/-- The instructions that write I (R26). -/
inductive WritesIndex : Instr → Prop where
  | ldINnn (nnn) : WritesIndex (.ldINnn nnn)
  | addIVx (x) : WritesIndex (.addIVx x)
  | ldFVx (x) : WritesIndex (.ldFVx x)

/-- The instructions that store to memory (R56). -/
inductive WritesMemory : Instr → Prop where
  | ldBVx (x) : WritesMemory (.ldBVx x)
  | ldMemVx (x) : WritesMemory (.ldMemVx x)

/-- The jumps (R123, R201). -/
inductive IsJump : Instr → Prop where
  | jp (nnn) : IsJump (.jp nnn)
  | jpV0Nnn (nnn) : IsJump (.jpV0Nnn nnn)

/-- The skips (R141 to R144, R241, R242). -/
inductive IsSkip : Instr → Prop where
  | seVxKk (x kk) : IsSkip (.seVxKk x kk)
  | sneVxKk (x kk) : IsSkip (.sneVxKk x kk)
  | seVxVy (x y n) : IsSkip (.seVxVy x y n)
  | sneVxVy (x y n) : IsSkip (.sneVxVy x y n)
  | skp (x) : IsSkip (.skp x)
  | sknp (x) : IsSkip (.sknp x)

/-- Everything that the execute step of an instruction can write when it answers next: which fields, by which
instructions, and the bounds that the written values obey. -/
inductive ExecEffect (s : State) : Instr → State → Prop where
  | stops {i} (f) : ExecEffect s i (s.stoppedWith f)
  | nothing {i} : ExecEffect s i s
  | clears (x) : ExecEffect s (.cls x) { s with disp := Display.cleared }
  | pops (x) (j : Fin 16) (hj : s.sp.toNat = j.val + 1) :
      ExecEffect s (.ret x) { s with sp := s.sp - 1, pc := s.stack.get j }
  | pushes (nnn) (h : s.sp.toNat < 16) : ExecEffect s (.call nnn) { s.push h with pc := addrOperand nnn }
  | jumps {i} (hi : IsJump i) (target : Word) (ht : target.toNat ≤ 0x10FE) : ExecEffect s i { s with pc := target }
  | skips {i} (hi : IsSkip i) : ExecEffect s i { s with pc := s.pc + 2 }
  | rewinds (x) : ExecEffect s (.ldVxK x) { s with pc := s.pc - 2 }
  | setsRegister {i x} (hi : WritesRegister i x) (b) : ExecEffect s i (s.setV x b)
  | setsResultAndFlag {i} (hi : WritesResultAndFlag i) (x r f) : ExecEffect s i (s.setResultAndFlag x r f)
  | setsIndex {i} (hi : WritesIndex i) (a) : ExecEffect s i { s with i := a }
  | setsTimer (x b) : ExecEffect s (.ldDtVx x) { s with dt := b }
  | setsRandom (x kk b) : ExecEffect s (.rndVxKk x kk) (s.drawRandom.setV x b)
  | draws (x y n d f) : ExecEffect s (.drw x y n) ({ s with disp := d }.setV flagReg f)
  | stores {i} (hi : WritesMemory i) (bs) (hr : rangeInMemory s.i.toNat bs.length) : ExecEffect s i (s.storeBlock bs)
  | loads (x) : ExecEffect s (.ldVxMem x) (s.loadRegsUpTo x)

/-- An answer that is a next state. -/
theorem ExecEffect.of_next {i : Instr} {s t u : State} (hu : ExecEffect s i u)
    (h : Host.Outcome.next (φ := Fault) (ρ := Refusal) u = .next t) : ExecEffect s i t :=
  Host.Outcome.next.inj h ▸ hu

/-- An answer of a skip. -/
theorem ExecEffect.of_skipIf {i : Instr} {s : State} (hi : IsSkip i) (c : Bool) : ExecEffect s i (s.skipIf c) := by
  cases c with
  | false => exact .nothing
  | true => exact .skips hi

/-- An answer of `withKey`. -/
theorem ExecEffect.of_withKey {i : Instr} {x : Nibble} {word : Word} {s t : State} {done : Bool → State}
    (h : withKey x word s done = .next t) (hd : ∀ b, ExecEffect s i (done b)) : ExecEffect s i t := by
  rcases withKey_cases h with ⟨k, -, rfl⟩ | ⟨-, rfl⟩
  · exact hd _
  · exact .stops _

/-- An answer of `withRange`. -/
theorem ExecEffect.of_withRange {i : Instr} {n : Nat} {word : Word} {s t done : State}
    (h : withRange n word s done = .next t) (hd : rangeInMemory s.i.toNat n → ExecEffect s i done) :
    ExecEffect s i t := by
  rcases withRange_cases h with ⟨hr, rfl⟩ | ⟨-, rfl⟩
  · exact hd hr
  · exact .stops _

/-- The effect of the execute step of every instruction. -/
theorem exec_effect {i : Instr} {s t : State} (h : exec i s = .next t) : ExecEffect s i t := by
  cases i with
  | ret x =>
    rcases s.sp_cases with h0 | ⟨j, hj⟩ | h16
    · rw [exec_ret_empty h0] at h; exact .of_next (.stops _) h
    · rw [exec_ret_pop hj] at h; exact .of_next (.pops x j hj) h
    · rw [exec_ret_absent h16] at h; cases h
  | call nnn =>
    by_cases hsp : s.sp.toNat < 16
    · rw [exec_call_free hsp] at h; exact .of_next (.pushes nnn hsp) h
    · rw [exec_call_full (by omega)] at h; exact .of_next (.stops _) h
  | ldVxK x =>
    simp only [exec, execLdVxK] at h
    split at h
    · exact .of_next (.setsRegister (.ldVxK x) _) h
    · exact .of_next (.rewinds x) h
  | cls x => exact .of_next (.clears x) h
  | jp nnn => exact .of_next (.jumps (.jp nnn) _ (by rw [toNat_addrOperand]; omega)) h
  | jpV0Nnn nnn => exact .of_next (.jumps (.jpV0Nnn nnn) _ (by rw [toNat_computedTarget]; omega)) h
  | seVxKk x kk => exact .of_next (.of_skipIf (.seVxKk x kk) _) h
  | sneVxKk x kk => exact .of_next (.of_skipIf (.sneVxKk x kk) _) h
  | seVxVy x y n => exact .of_next (.of_skipIf (.seVxVy x y n) _) h
  | sneVxVy x y n => exact .of_next (.of_skipIf (.sneVxVy x y n) _) h
  | skp x => exact .of_withKey (done := fun b => s.skipIf b) h fun _ => .of_skipIf (.skp x) _
  | sknp x => exact .of_withKey (done := fun b => s.skipIf !b) h fun _ => .of_skipIf (.sknp x) _
  | ldVxKk x kk => exact .of_next (.setsRegister (.ldVxKk x kk) _) h
  | addVxKk x kk => exact .of_next (.setsRegister (.addVxKk x kk) _) h
  | ldVxVy x y => exact .of_next (.setsRegister (.ldVxVy x y) _) h
  | orVxVy x y => exact .of_next (.setsRegister (.orVxVy x y) _) h
  | andVxVy x y => exact .of_next (.setsRegister (.andVxVy x y) _) h
  | xorVxVy x y => exact .of_next (.setsRegister (.xorVxVy x y) _) h
  | ldVxDt x => exact .of_next (.setsRegister (.ldVxDt x) _) h
  | addVxVy x y => exact .of_next (.setsResultAndFlag (.addVxVy x y) ..) h
  | subVxVy x y => exact .of_next (.setsResultAndFlag (.subVxVy x y) ..) h
  | shrVx x y => exact .of_next (.setsResultAndFlag (.shrVx x y) ..) h
  | subnVxVy x y => exact .of_next (.setsResultAndFlag (.subnVxVy x y) ..) h
  | shlVx x y => exact .of_next (.setsResultAndFlag (.shlVx x y) ..) h
  | ldINnn nnn => exact .of_next (.setsIndex (.ldINnn nnn) _) h
  | addIVx x => exact .of_next (.setsIndex (.addIVx x) _) h
  | ldFVx x => exact .of_next (.setsIndex (.ldFVx x) _) h
  | ldDtVx x => exact .of_next (.setsTimer x _) h
  | rndVxKk x kk => exact .of_next (.setsRandom x kk _) h
  | drw x y n => exact .of_withRange h fun _ => .draws x y n _ _
  | ldBVx x => exact .of_withRange h fun hr => .stores (.ldBVx x) _ hr
  | ldMemVx x => exact .of_withRange h fun hr => .stores (.ldMemVx x) _ (by rwa [State.length_regsUpTo])
  | ldVxMem x => exact .of_withRange h fun _ => .loads x
  | nopFamily0 nnn => exact .of_next .nothing h
  | nopFamily8 x y n => exact .of_next .nothing h
  | nopFamilyE x kk => exact .of_next .nothing h
  | nopFamilyF x kk => exact .of_next .nothing h

/-! ### Frames -/

/-- No instruction writes KEY (R32). -/
theorem exec_keys {i : Instr} {s t : State} (h : exec i s = .next t) : t.keys = s.keys := by
  cases exec_effect h <;> rfl

/-- An instruction that is none of the three writers of I leaves it (R26). -/
theorem exec_index {i : Instr} {s t : State} (h : exec i s = .next t) (hi : ¬ WritesIndex i) : t.i = s.i := by
  cases exec_effect h with
  | setsIndex hw => exact absurd hw hi
  | _ => rfl

/-- An instruction other than `CALL` leaves the stack (R28). -/
theorem exec_stack {i : Instr} {s t : State} (h : exec i s = .next t) (hcall : ∀ nnn, i ≠ .call nnn) :
    t.stack = s.stack := by
  cases exec_effect h with
  | pushes nnn => exact absurd rfl (hcall nnn)
  | _ => rfl

/-- An instruction other than `CALL` and `RET` leaves SP (R27). -/
theorem exec_sp {i : Instr} {s t : State} (h : exec i s = .next t) (hcall : ∀ nnn, i ≠ .call nnn)
    (hret : ∀ x, i ≠ .ret x) : t.sp = s.sp := by
  cases exec_effect h with
  | pushes nnn => exact absurd rfl (hcall nnn)
  | pops x => exact absurd rfl (hret x)
  | _ => rfl

/-- A push leaves every stack entry but the one at SP. -/
theorem State.get_push_of_ne {s : State} (h : s.sp.toNat < 16) {j : Fin 16} (hj : j.val ≠ s.sp.toNat) :
    (s.push h).stack.get j = s.stack.get j := by
  simp [Vector.get_eq_getElem, Vector.getElem_set_ne, hj.symm]

/-- Every instruction leaves the stack entries at every index but SP (R28). -/
theorem exec_stackEntry_of_ne {i : Instr} {s t : State} (h : exec i s = .next t) {j : Fin 16}
    (hj : j.val ≠ s.sp.toNat) : t.stack.get j = s.stack.get j := by
  cases exec_effect h with
  | pushes nnn hsp => exact State.get_push_of_ne hsp hj
  | _ => rfl

end Sys2Proof.Machine
end

section
/-! ## Every step keeps the invariant -/

namespace Sys2Proof.Machine

/-! ### Bounds that every execute step keeps -/

/-- Memory stays canonical: every store has been checked to lie in memory (R55). -/
theorem exec_mem_wf {i : Instr} {s t : State} (h : exec i s = .next t) (hm : s.mem.wf = true) : t.mem.wf = true := by
  cases exec_effect h with
  | stores hw bs hr => exact Memory.writeBlock_wf hm hr
  | _ => exact hm

/-- SP stays in 0..16 (R27). -/
theorem exec_sp_le {i : Instr} {s t : State} (h : exec i s = .next t) (hsp : s.sp.toNat ≤ 16) : t.sp.toNat ≤ 16 := by
  cases exec_effect h with
  | pops x j hj => show (s.sp - 1).toNat ≤ 16; bv_omega
  | pushes nnn hfree => show (s.sp + 1).toNat ≤ 16; bv_omega
  | _ => exact hsp

/-- The return address that `CALL` pushes is PC, so its bound is one of every stack entry (R24, R124). -/
theorem exec_stack_le {i : Instr} {s t : State} {b : Nat} (h : exec i s = .next t) (hpc : s.pc.toNat ≤ b)
    (hst : ∀ j : Fin 16, (s.stack.get j).toNat ≤ b) (j : Fin 16) : (t.stack.get j).toNat ≤ b := by
  cases exec_effect h with
  | pushes nnn hfree =>
    by_cases hj : j.val = s.sp.toNat
    · simpa [Vector.get_eq_getElem, hj] using hpc
    · simpa only [State.get_push_of_ne hfree hj] using hst j
  | _ => exact hst j

/-- From an execute step at PC = a + 2 with a in memory, PC ends at 0x10FE or below (R24, R201). -/
theorem exec_pc_le {i : Instr} {s t : State} (h : exec i s = .next t) (hlo : 2 ≤ s.pc.toNat)
    (hhi : s.pc.toNat ≤ 0x1000) (hst : ∀ j : Fin 16, (s.stack.get j).toNat ≤ 0x1000) : t.pc.toNat ≤ 0x10FE := by
  have hback : (s.pc - 2).toNat ≤ 0x10FE := by bv_omega
  have hkept : s.pc.toNat ≤ 0x10FE := by omega
  cases exec_effect h with
  | stops => exact hback
  | rewinds => exact hback
  | pops x j => exact (hst j).trans (by decide)
  | pushes nnn => show (addrOperand nnn).toNat ≤ 0x10FE; rw [toNat_addrOperand]; omega
  | jumps hi target ht => exact ht
  | skips => show (s.pc + 2).toNat ≤ 0x10FE; bv_omega
  | _ => exact hkept

/-! ### Fault reports -/

/-- A fault raised by the fetched word `w` leaves the state before the cycle, and records its PC and `w` itself
(R105, R301). -/
theorem State.stoppedWith_advance (s : State) (w : Word) (f : Word → Word → FatalFault) :
    s.advance.stoppedWith (f (s.advance.pc - 2) (encode (decode w))) = s.enterFault (f s.pc w) := by
  have hpc : s.advance.pc - 2 = s.pc := s.instrAddr_advance
  rw [State.stoppedWith, hpc, encode_decode]
  rfl

/-- Whether a report is true does not depend on STATUS. -/
theorem State.reportHolds_enterFault {s : State} {f g : FatalFault} (h : s.reportHolds f) :
    (s.enterFault g).reportHolds f := by
  cases f <;> exact h

/-- A state that meets the invariant still does once it reports a fault that holds (R301). -/
theorem State.Inv.enterFault {s : State} {f : FatalFault} (hs : s.Inv) (hf : s.reportHolds f) :
    (s.enterFault f).Inv where
  mem_wf := hs.mem_wf
  sp_le := hs.sp_le
  pc_le := hs.pc_le
  stack_le := hs.stack_le
  status_holds := State.reportHolds_enterFault hf

/-- The execute step of the fetched word leaves the engine Running or records in the state before the cycle a fault
that holds there (R105, R300, R301). -/
theorem exec_report {s t : State} {w : Word} (hs : s.Inv) (hrun : s.status = .running) (hf : s.fetch = some w)
    (h : exec (decode w) s.advance = .next t) :
    t.status = .running ∨ ∃ f, s.reportHolds f ∧ t = s.enterFault f := by
  cases exec_status h with
  | kept hk => exact .inl (hk.trans hrun)
  | overflow ht hi hfull =>
    exact .inr ⟨.stackOverflow s.pc w, ⟨rfl, hf, hi, hs.sp_le.antisymm hfull⟩,
      ht.trans (s.stoppedWith_advance w .stackOverflow)⟩
  | underflow ht hi hempty =>
    exact .inr ⟨.stackUnderflow s.pc w, ⟨rfl, hf, hi, hempty⟩,
      ht.trans (s.stoppedWith_advance w .stackUnderflow)⟩
  | memory ht hleaves =>
    exact .inr ⟨.memoryOutOfRange s.pc w _, ⟨rfl, hf, hleaves, rfl⟩,
      ht.trans (s.stoppedWith_advance w fun pc word => .memoryOutOfRange pc word _)⟩
  | key k ht habsent =>
    exact .inr ⟨.keyIndexOutOfRange s.pc w k, ⟨rfl, hf, habsent⟩,
      ht.trans (s.stoppedWith_advance w fun pc word => .keyIndexOutOfRange pc word k)⟩

/-! ### The invariant -/

/-- The timer tick of a Running engine keeps the invariant (R104). -/
theorem State.Inv.tick {s : State} (hs : s.Inv) (hrun : s.status = .running) : s.tick.Inv where
  mem_wf := hs.mem_wf
  sp_le := hs.sp_le
  pc_le := hs.pc_le
  stack_le := hs.stack_le
  status_holds := by simp only [State.statusHolds, State.tick_status, hrun]

/-- The execute step of a fetched word keeps the invariant when it leaves the engine Running. -/
theorem State.Inv.exec_running {s t : State} {w : Word} (hs : s.Inv) (hf : s.fetch = some w)
    (h : exec (decode w) s.advance = .next t) (hrun : t.status = .running) : t.Inv := by
  have ha : s.pc.toNat ≤ 0xFFE := (State.fetch_eq_some_iff.mp hf).1
  have hpc : s.advance.pc.toNat = s.pc.toNat + 2 := by rw [State.advance_pc]; bv_omega
  exact {
    mem_wf := exec_mem_wf h hs.mem_wf
    sp_le := exec_sp_le h hs.sp_le
    pc_le := exec_pc_le h (by omega) (by omega) hs.stack_le
    stack_le := exec_stack_le h (by omega) hs.stack_le
    status_holds := by simp only [State.statusHolds, hrun] }

/-- Settles O11: a Faulted engine stays, a failed fetch and an execute step that faults report what holds, and an
execute step that completes keeps the bounds. -/
theorem everyStepKeepsTheInvariant : Obligations.EveryStepKeepsTheInvariant := by
  intro s u hs h
  rcases step_cases h with ⟨-, rfl⟩ | ⟨-, hpc, rfl⟩ | ⟨w, t, hrun, hf, ht, ⟨htrun, rfl⟩ | ⟨htrun, rfl⟩⟩
  · exact hs
  · exact hs.enterFault ⟨rfl, hpc⟩
  · exact (hs.exec_running hf ht htrun).tick htrun
  · rcases exec_report hs hrun hf ht with hr | ⟨f, hholds, rfl⟩
    · exact absurd hr htrun
    · exact hs.enterFault hholds

/-- Settles O10: the reset state is Running with an empty stack and the canonical empty memory. -/
theorem resetMeetsTheInvariant : Obligations.ResetMeetsTheInvariant where
  mem_wf := rfl
  sp_le := by decide
  pc_le := by decide
  stack_le := by simp [State.reset, Vector.get_eq_getElem]
  status_holds := trivial

/-- Settles O53: each piece of the reset state by its definition. -/
theorem resetValues : Obligations.ResetValues := by
  refine ⟨fun r => ?_, rfl, rfl, rfl, fun j => ?_, rfl, fun k => ?_, fun k => ?_, rfl⟩
  · simp [State.getV, State.reset]
  all_goals simp [State.reset, Vector.get_eq_getElem]

end Sys2Proof.Machine
end

section
/-! ## Who writes I, the stack, VF and KEY -/

namespace Sys2Proof.Machine

/-- Settles O17: the one effect on I belongs to the three instructions that write it. -/
theorem indexIsWrittenByThreeInstructions : Obligations.IndexIsWrittenByThreeInstructions := by
  intro i s t h hld hadd hldF
  refine exec_index h fun hw => ?_
  cases hw with
  | ldINnn nnn => exact hld nnn rfl
  | addIVx x => exact hadd x rfl
  | ldFVx x => exact hldF x rfl

/-- Settles O18, by the frames of the stack, of SP and of the entries other than the one at SP. -/
theorem stackIsChangedOnlyByCallAndRet : Obligations.StackIsChangedOnlyByCallAndRet :=
  fun _ _ _ h => ⟨fun hcall => ⟨exec_stack h hcall, exec_sp h hcall⟩, fun _ => exec_stackEntry_of_ne h⟩

/-- Settles O26: there is no stack entry at SP - 1. -/
theorem retAboveSixteenStops : Obligations.RetAboveSixteenStops := fun _ _ => exec_ret_absent

/-- A register write that changes VF is one to VF. -/
theorem State.eq_flagReg_of_setV {s : State} {x : Nibble} {b : Byte}
    (h : (s.setV x b).getV flagReg ≠ s.getV flagReg) : x = flagReg := by
  by_contra hx
  exact h (by rw [State.getV_setV, if_neg (Ne.symm hx)])

/-- A block load that changes VF is one of all sixteen registers (R256). -/
theorem State.eq_flagReg_of_loadRegsUpTo {s : State} {x : Nibble}
    (h : (s.loadRegsUpTo x).getV flagReg ≠ s.getV flagReg) : x = flagReg := by
  by_contra hx
  have hlt : ¬ flagReg.toNat ≤ x.toNat := by bv_omega
  exact h (by rw [State.getV_loadRegsUpTo, if_neg hlt])

/-- Settles O19: an effect that reaches VF is a flag write or has VF as the register it names. -/
theorem flagRegisterIsWrittenOnlyByItsWriters : Obligations.FlagRegisterIsWrittenOnlyByItsWriters := by
  intro i s t h hne
  cases exec_effect h with
  | setsResultAndFlag hi => cases hi <;> simp
  | draws x y n => simp
  | setsRegister hi b => cases State.eq_flagReg_of_setV hne; cases hi <;> simp
  | setsRandom x kk b => cases State.eq_flagReg_of_setV (s := s.drawRandom) hne; simp
  | loads x => cases State.eq_flagReg_of_loadRegsUpTo hne; simp
  | _ => exact absurd rfl hne

/-! ### KEY and the call stack replaced -/

/-- An answer with the keys and the call stack of its next state replaced. -/
def withKeysStackIn (keys : Vector Bool 16) (stack : Vector Word 16) : Result → Result
  | .next t => .next { t with keys := keys, stack := stack }
  | .fault r => .fault r
  | .refused r => .refused r

/-- Replacing KEY and the stack passes through a skip. -/
theorem State.skipIf_withKeysStack (s : State) (keys : Vector Bool 16) (stack : Vector Word 16) (c : Bool) :
    { s.skipIf c with keys := keys, stack := stack }
      = ({ s with keys := keys, stack := stack } : State).skipIf c := by
  cases c <;> rfl

/-- Replacing KEY and the stack passes through a range check. -/
theorem withRange_withKeysStack (keys : Vector Bool 16) (stack : Vector Word 16) (n : Nat) (word : Word)
    (s done : State) :
    withKeysStackIn keys stack (withRange n word s done)
      = withRange n word { s with keys := keys, stack := stack } { done with keys := keys, stack := stack } := by
  by_cases hr : rangeInMemory s.i.toNat n
  · rw [withRange_inside hr]
    exact (withRange_inside (s := { s with keys := keys, stack := stack }) hr).symm
  · rw [withRange_outside hr]
    exact (withRange_outside (s := { s with keys := keys, stack := stack }) hr).symm

/-- The three instructions that read KEY (R32). -/
inductive ReadsKeys : Instr → Prop where
  | skp (x) : ReadsKeys (.skp x)
  | sknp (x) : ReadsKeys (.sknp x)
  | ldVxK (x) : ReadsKeys (.ldVxK x)

/-- The two instructions that use the call stack (R27, R28). -/
inductive UsesStack : Instr → Prop where
  | call (nnn) : UsesStack (.call nnn)
  | ret (x) : UsesStack (.ret x)

/-- An instruction that neither reads KEY nor uses the call stack does the same whatever they hold (R28, R32). -/
theorem exec_withKeysStack {i : Instr} (s : State) (keys : Vector Bool 16) (stack : Vector Word 16)
    (hkeys : ¬ ReadsKeys i) (hstack : ¬ UsesStack i) :
    withKeysStackIn keys stack (exec i s) = exec i { s with keys := keys, stack := stack } := by
  cases i with
  | skp x => exact absurd (.skp x) hkeys
  | sknp x => exact absurd (.sknp x) hkeys
  | ldVxK x => exact absurd (.ldVxK x) hkeys
  | call nnn => exact absurd (.call nnn) hstack
  | ret x => exact absurd (.ret x) hstack
  | drw x y n => exact withRange_withKeysStack ..
  | ldBVx x => exact withRange_withKeysStack ..
  | ldMemVx x => exact withRange_withKeysStack ..
  | ldVxMem x => exact withRange_withKeysStack ..
  | seVxKk x kk => exact congrArg Host.Outcome.next (s.skipIf_withKeysStack keys stack _)
  | sneVxKk x kk => exact congrArg Host.Outcome.next (s.skipIf_withKeysStack keys stack _)
  | seVxVy x y n => exact congrArg Host.Outcome.next (s.skipIf_withKeysStack keys stack _)
  | sneVxVy x y n => exact congrArg Host.Outcome.next (s.skipIf_withKeysStack keys stack _)
  | _ => rfl

/-! ### KEY -/

/-- `CALL` and `RET` do not read KEY (R32). -/
theorem exec_withKeys_of_usesStack {i : Instr} (s : State) (keys : Vector Bool 16) (hi : UsesStack i) :
    exec i { s with keys := keys } = withKeysIn keys (exec i s) := by
  cases hi with
  | call nnn =>
    by_cases hsp : s.sp.toNat < 16
    · rw [exec_call_free hsp]
      exact exec_call_free (s := { s with keys := keys }) hsp
    · rw [exec_call_full (Nat.le_of_not_lt hsp)]
      exact exec_call_full (s := { s with keys := keys }) (Nat.le_of_not_lt hsp)
  | ret x =>
    rcases s.sp_cases with h0 | ⟨j, hj⟩ | h16
    · rw [exec_ret_empty h0]; exact exec_ret_empty (s := { s with keys := keys }) h0
    · rw [exec_ret_pop hj]; exact exec_ret_pop (s := { s with keys := keys }) hj
    · rw [exec_ret_absent h16]; exact exec_ret_absent (s := { s with keys := keys }) h16

/-- An instruction that is neither a key test nor the key wait does not read KEY (R32). -/
theorem exec_withKeys {i : Instr} (s : State) (keys : Vector Bool 16) (hi : ¬ ReadsKeys i) :
    exec i { s with keys := keys } = withKeysIn keys (exec i s) := by
  by_cases hstack : UsesStack i
  · exact exec_withKeys_of_usesStack s keys hstack
  have h := exec_withKeysStack s keys s.stack hi hstack
  cases he : exec i s with
  | next t =>
    have ht : t.stack = s.stack := exec_stack he fun nnn hc => hstack (hc ▸ .call nnn)
    rw [he] at h
    exact h.symm.trans (by simp only [withKeysStackIn, withKeysIn, ht])
  | fault r => rw [he] at h; exact h.symm
  | refused r => rw [he] at h; exact h.symm

/-- A cycle leaves KEY as the host left it (R32). -/
theorem step_keys {s t : State} (h : step s = .next t) : t.keys = s.keys := by
  rcases step_cases h with ⟨-, rfl⟩ | ⟨-, -, rfl⟩ | ⟨w, u, -, -, hu, hend⟩
  · rfl
  · rfl
  · have hk : u.keys = s.keys := (exec_keys hu).trans s.advance_keys
    rcases hend with ⟨-, rfl⟩ | ⟨-, rfl⟩ <;> exact hk

/-- A load leaves KEY (R343). -/
@[simp] theorem State.load_keys (s : State) (bytes : List Byte) : (s.load bytes).keys = s.keys := by
  unfold State.load
  split <;> rfl

/-- A next session is one with the next engine. -/
theorem Session.answer_eq_next_iff {loaded : Bool} {r : Result} {q : Session} :
    Session.answer loaded r = .next q ↔ ∃ t, r = .next t ∧ q = ⟨t, loaded⟩ := by
  cases r <;> simp [Session.answer, eq_comm]

/-- A host event other than a key event leaves KEY (R32). -/
theorem hostStep_keys {e : HostEvent} {p q : Session} (hdown : ∀ k, e ≠ .keyDown k) (hup : ∀ k, e ≠ .keyUp k)
    (h : hostStep e p = .next q) : q.engine.keys = p.engine.keys := by
  cases e with
  | keyDown k => exact absurd rfl (hdown k)
  | keyUp k => exact absurd rfl (hup k)
  | load bytes =>
    simp only [hostStep] at h
    split at h
    · cases h
    · cases Host.Outcome.next.inj h; exact State.load_keys ..
  | cycle =>
    simp only [hostStep] at h
    split at h
    · obtain ⟨t, ht, rfl⟩ := Session.answer_eq_next_iff.mp h
      exact step_keys ht
    · cases h

/-- Settles O14: no instruction writes KEY, only three read it, and no other host event touches it. -/
theorem keysAreWrittenByTheHostAndReadByThreeInstructions :
    Obligations.KeysAreWrittenByTheHostAndReadByThreeInstructions := by
  refine ⟨fun _ _ _ => exec_keys, fun i s keys hskp hsknp hwait => exec_withKeys s keys fun hi => ?_,
    fun _ _ _ => hostStep_keys⟩
  cases hi with
  | skp x => exact hskp x rfl
  | sknp x => exact hsknp x rfl
  | ldVxK x => exact hwait x rfl

end Sys2Proof.Machine
end

section
/-! ## Stale stack entries are never observed -/

namespace Sys2Proof.Machine

/-- A key test does not read the call stack. -/
theorem withKey_withStack {x : Nibble} {word : Word} {s t : State} {c : Bool → Bool}
    (h : withKey x word s (fun b => s.skipIf (c b)) = .next t) (stack : Vector Word 16) :
    withKey x word { s with stack := stack } (fun b => ({ s with stack := stack } : State).skipIf (c b))
      = .next { t with stack := stack } := by
  rcases withKey_cases h with ⟨k, hk, rfl⟩ | ⟨hk, rfl⟩
  · refine (withKey_inside (s := { s with stack := stack }) k hk).trans (congrArg Host.Outcome.next ?_)
    rw [← State.skipIf_withKeysStack, State.skipIf_keys]
  · exact withKey_outside (s := { s with stack := stack }) hk

/-- The key tests and the key wait do not read the call stack. -/
theorem exec_withStack_of_readsKeys {i : Instr} {s t : State} (hi : ReadsKeys i) (h : exec i s = .next t)
    (stack : Vector Word 16) : exec i { s with stack := stack } = .next { t with stack := stack } := by
  cases hi with
  | skp x => exact withKey_withStack (c := id) h stack
  | sknp x => exact withKey_withStack (c := not) h stack
  | ldVxK x =>
    simp only [exec, execLdVxK] at h ⊢
    have hkeys : ({ s with stack := stack } : State).firstPressed = s.firstPressed := rfl
    rw [hkeys]
    cases hk : s.firstPressed <;> (rw [hk] at h; cases h; rfl)

/-- An instruction other than `CALL` and `RET` does not read the call stack (R28). -/
theorem exec_withStack {i : Instr} {s t : State} (hi : ¬ UsesStack i) (h : exec i s = .next t)
    (stack : Vector Word 16) : exec i { s with stack := stack } = .next { t with stack := stack } := by
  by_cases hkeys : ReadsKeys i
  · exact exec_withStack_of_readsKeys hkeys h stack
  · have hexec := exec_withKeysStack s s.keys stack hkeys hi
    rw [h] at hexec
    exact hexec.symm.trans (by simp only [withKeysStackIn, exec_keys h])

/-- `RET` pops a live entry, and what is live afterwards was live before (R121). -/
theorem exec_ret_agree {x : Nibble} {s t : State} {stack : Vector Word 16}
    (hlive : ∀ j : Fin 16, j.val < s.sp.toNat → s.stack.get j = stack.get j) (h : exec (.ret x) s = .next t) :
    ∃ t', exec (.ret x) { s with stack := stack } = .next t' ∧ t.AgreeOnLiveStack t' := by
  rcases s.sp_cases with h0 | ⟨j, hj⟩ | h16
  · rw [exec_ret_empty h0] at h
    cases h
    exact ⟨_, exec_ret_empty (s := { s with stack := stack }) h0, rfl, hlive⟩
  · rw [exec_ret_pop hj] at h
    cases h
    have htop : s.stack.get j = stack.get j := hlive j (by omega)
    have hsp : (s.sp - 1).toNat = j.val := by bv_omega
    refine ⟨_, exec_ret_pop (s := { s with stack := stack }) hj, by simp only [htop], fun k hk => hlive k ?_⟩
    have hk : k.val < (s.sp - 1).toNat := hk
    omega
  · rw [exec_ret_absent h16] at h
    cases h

/-- `CALL` pushes the same address on both stacks, at the one entry that becomes live (R124). -/
theorem exec_call_agree {nnn : Addr} {s t : State} {stack : Vector Word 16}
    (hlive : ∀ j : Fin 16, j.val < s.sp.toNat → s.stack.get j = stack.get j) (h : exec (.call nnn) s = .next t) :
    ∃ t', exec (.call nnn) { s with stack := stack } = .next t' ∧ t.AgreeOnLiveStack t' := by
  by_cases hsp : s.sp.toNat < 16
  · rw [exec_call_free hsp] at h
    cases h
    refine ⟨_, exec_call_free (s := { s with stack := stack }) hsp, rfl, fun j hj => ?_⟩
    have hj : j.val < (s.sp + 1).toNat := hj
    have hnext : (s.sp + 1).toNat = s.sp.toNat + 1 := by bv_omega
    by_cases htop : j.val = s.sp.toNat
    · simp [Vector.get_eq_getElem, htop]
    · rw [State.get_push_of_ne hsp htop, State.get_push_of_ne (s := { s with stack := stack }) hsp htop]
      exact hlive j (by omega)
  · rw [exec_call_full (Nat.le_of_not_lt hsp)] at h
    cases h
    exact ⟨_, exec_call_full (s := { s with stack := stack }) (Nat.le_of_not_lt hsp), rfl, hlive⟩

/-- Settles O22: `CALL` and `RET` use live entries only, and every other instruction neither reads nor writes the
stack or SP. -/
theorem staleStackEntriesAreNeverObserved : Obligations.StaleStackEntriesAreNeverObserved := by
  rintro i s s' t ⟨heq, hlive⟩ h
  rw [← heq]
  by_cases hi : UsesStack i
  · cases hi with
    | call nnn => exact exec_call_agree hlive h
    | ret x => exact exec_ret_agree hlive h
  · have hcall : ∀ nnn, i ≠ .call nnn := fun nnn hc => hi (hc ▸ .call nnn)
    have hret : ∀ x, i ≠ .ret x := fun x hr => hi (hr ▸ .ret x)
    refine ⟨_, exec_withStack hi h s'.stack, rfl, ?_⟩
    rwa [exec_stack h hcall, exec_sp h hcall hret]

end Sys2Proof.Machine
end

/-! # Memory family: who writes memory, stored bytes as fetched, the range check, memory at reset (20_memory.md) -/

section
/-! ## Only the two stores write memory -/

namespace Sys2Proof.Machine

/-- An instruction that is neither of the two stores leaves memory (R56). -/
theorem exec_mem {i : Instr} {s t : State} (h : exec i s = .next t) (hi : ¬ WritesMemory i) : t.mem = s.mem := by
  cases exec_effect h with
  | stores hw => exact absurd hw hi
  | loads x => exact s.loadRegsUpTo_mem x
  | _ => rfl

/-- Settles O16: the one effect on memory belongs to the two stores. -/
theorem memoryIsWrittenOnlyByBcdAndBlockStore : Obligations.MemoryIsWrittenOnlyByBcdAndBlockStore := by
  intro i s t h hbcd hblock
  refine exec_mem h fun hw => ?_
  cases hw with
  | ldBVx x => exact hbcd x rfl
  | ldMemVx x => exact hblock x rfl

end Sys2Proof.Machine
end

section
/-! ## Bytes stored are fetched at once -/

namespace Sys2Proof.Machine

/-- `LD [I],Vx` with I + x in memory (R255). -/
theorem exec_ldMemVx_inside {x : Nibble} {s : State} (h : s.i.toNat + x.toNat ≤ 0xFFF) :
    exec (.ldMemVx x) s = .next (s.storeBlock (s.regsUpTo x)) :=
  withRange_inside (.inr (by simp only [Config.memSize]; omega))

/-- `LD B,Vx` with I + 2 in memory (R254). -/
theorem exec_ldBVx_inside {x : Nibble} {s : State} (h : s.i.toNat + 2 ≤ 0xFFF) :
    exec (.ldBVx x) s = .next (s.storeBlock (decimalDigits (s.getV x))) :=
  withRange_inside (.inr (by simp only [Config.memSize]; omega))

/-- The bytes of V0..Vx are the registers by their numbers (R255). -/
theorem State.regsUpTo_eq_map_getV (s : State) (x : Nibble) :
    s.regsUpTo x = (List.range (x.toNat + 1)).map fun r => s.getV (BitVec.ofNat 4 r) := by
  refine List.ext_getElem (by simp) fun r hr _ => ?_
  have hrx : r < x.toNat + 1 := by rwa [State.length_regsUpTo] at hr
  have hnum : (BitVec.ofNat 4 r).toNat = r := by rw [BitVec.toNat_ofNat]; omega
  have := s.getElem_regsUpTo x (BitVec.ofNat 4 r) (by rwa [hnum])
  simpa only [hnum, List.getElem_map, List.getElem_range] using this

/-- The three digits of a byte as bytes of their values (R254). -/
theorem decimalDigits_eq_map_ofNat (b : Byte) :
    decimalDigits b = [b.toNat / 100, b.toNat / 10 % 10, b.toNat % 10].map (BitVec.ofNat 8) := by
  rw [← decimalDigits_toNat, List.map_map]
  simp [Function.comp_def]

/-- Settles O51: both stores are block stores from I, after which `State.fetch_storeBlock` says what is fetched. -/
theorem storedBytesAreFetchedAtOnce : Obligations.StoredBytesAreFetchedAtOnce := by
  refine fun x s hm => ⟨fun hin => ⟨_, exec_ldMemVx_inside hin, fun a ha => ?_⟩,
    fun hin => ⟨_, exec_ldBVx_inside hin, fun a ha => ?_⟩⟩
  · rw [← s.regsUpTo_eq_map_getV x]
    exact State.fetch_storeBlock hm (by simp only [State.length_regsUpTo, Config.memSize]; omega) ha
  · rw [← decimalDigits_eq_map_ofNat]
    exact State.fetch_storeBlock hm (by simp only [length_decimalDigits, Config.memSize]; omega) ha

end Sys2Proof.Machine
end

section
/-! ## Ranges that leave memory -/

namespace Sys2Proof.Machine

/-- An instruction whose byte range leaves memory raises MemoryOutOfRange with the first absent address, and changes
nothing but STATUS and the PC that is taken back (R55, R301). -/
theorem exec_of_rangeLeavesMemory {i : Instr} {s : State} (h : s.RangeLeavesMemory i) :
    exec i s = .next (s.stoppedWith (.memoryOutOfRange (s.pc - 2) (encode i) (max s.i.toNat 0x1000))) := by
  rcases h with ⟨x, y, n, rfl, hn, hout⟩ | ⟨x, rfl, hout⟩ | ⟨x, rfl, hout⟩ | ⟨x, rfl, hout⟩
  · have hn : n.toNat ≠ 0 := fun h0 => hn (BitVec.eq_of_toNat_eq h0)
    exact withRange_outside (by simp only [rangeInMemory, Config.memSize]; omega)
  all_goals exact withRange_outside (by simp only [rangeInMemory, Config.memSize]; omega)

/-- Settles O47: in each clause the instruction is one whose range leaves memory. -/
theorem rangesPastMemoryFault : Obligations.RangesPastMemoryFault := by
  refine fun x y n s => ⟨fun hn hout => ?drw, fun hout => ?bcd, fun hout => ?store, fun hout => ?load⟩
  case drw => exact exec_of_rangeLeavesMemory (.inl ⟨x, y, n, rfl, hn, hout⟩)
  case bcd => exact exec_of_rangeLeavesMemory (.inr (.inl ⟨x, rfl, by omega⟩))
  case store => exact exec_of_rangeLeavesMemory (.inr (.inr (.inl ⟨x, rfl, hout⟩)))
  case load => exact exec_of_rangeLeavesMemory (.inr (.inr (.inr ⟨x, rfl, hout⟩)))

end Sys2Proof.Machine
end

section
/-! ## Memory at reset -/

namespace Sys2Proof.Machine

/-- At reset nothing is listed, so every address reads as its reset byte (R37). -/
@[simp] theorem read_reset_mem (a : Nat) : State.reset.mem.read a = Memory.resetByte a := rfl

/-- Outside 0x050..0x09F the reset contents are zero (R51). -/
theorem Memory.resetByte_outside_glyphs {a : Nat} (h : a < 0x050 ∨ 0x09F < a) : Memory.resetByte a = 0#8 := by
  unfold Memory.resetByte
  split
  case isTrue => rfl
  case isFalse hlow =>
    have hpast : glyphTable.length ≤ a - Config.glyphBase := by
      have hlen : glyphTable.length = 80 := rfl
      simp only [Config.glyphBase] at hlow ⊢
      omega
    exact List.getD_eq_default _ _ hpast

/-- Settles O54: the eighty table bytes by evaluation, every other address by its place outside the table. -/
theorem resetMemoryIsTheGlyphTable : Obligations.ResetMemoryIsTheGlyphTable :=
  ⟨by decide, fun a _ ha => (read_reset_mem a).trans (Memory.resetByte_outside_glyphs ha)⟩

end Sys2Proof.Machine
end

/-! # Encoding family: decoding and encoding are inverse, and decoding is the opcode table (30_encoding.md) -/

section
/-! ## The two levels of the dispatch -/

namespace Sys2Proof

/-- The low byte of a word is the low byte of its nnn field (R72). -/
@[simp] theorem fieldNnn_lowByte (w : Word) : (fieldNnn w).extractLsb' 0 8 = fieldKk w := by
  rw [← fieldKk_packNnn (fieldOp w), packNnn_fields]

/-! ### The first level: the family (R74) -/

/-- The number that the first level looks at tells the family. -/
theorem fieldOp_eq_of_toNat {w : Word} {k : Nat} (h : (fieldOp w).toNat = k) : fieldOp w = BitVec.ofNat 4 k := by
  rw [← h, BitVec.ofNat_toNat, BitVec.setWidth_eq]

theorem decode_family0 {w : Word} (h : fieldOp w = 0x0#4) : decode w = decodeFamily0 w := by simp [decode, h]
theorem decode_family8 {w : Word} (h : fieldOp w = 0x8#4) : decode w = decodeFamily8 w := by simp [decode, h]
theorem decode_familyE {w : Word} (h : fieldOp w = 0xE#4) : decode w = decodeFamilyE w := by simp [decode, h]
theorem decode_familyF {w : Word} (h : fieldOp w = 0xF#4) : decode w = decodeFamilyF w := by simp [decode, h]

/-! ### The second level: no row selected (R80) -/

/-- Family 0 with a low byte that selects no instruction (R75). -/
theorem decodeFamily0_other {w : Word} (h : selectsFamily0 (fieldKk w) = false) :
    decodeFamily0 w = .nopFamily0 (fieldNnn w) := by
  simp only [selectsFamily0, List.contains_eq_mem, decide_eq_false_iff_not, List.mem_cons, not_or] at h
  simp [decodeFamily0, h]

/-- Family 8 with a low nibble that selects no instruction (R76). -/
theorem decodeFamily8_other {w : Word} (h : selectsFamily8 (fieldN w) = false) :
    decodeFamily8 w = .nopFamily8 (fieldX w) (fieldY w) (fieldN w) := by
  simp only [selectsFamily8, List.contains_eq_mem, decide_eq_false_iff_not, List.mem_cons, not_or] at h
  simp [decodeFamily8, h]

/-- Family E with a low byte that selects no instruction (R77). -/
theorem decodeFamilyE_other {w : Word} (h : selectsFamilyE (fieldKk w) = false) :
    decodeFamilyE w = .nopFamilyE (fieldX w) (fieldKk w) := by
  simp only [selectsFamilyE, List.contains_eq_mem, decide_eq_false_iff_not, List.mem_cons, not_or] at h
  simp [decodeFamilyE, h]

/-- Family F with a low byte that selects no instruction (R78). -/
theorem decodeFamilyF_other {w : Word} (h : selectsFamilyF (fieldKk w) = false) :
    decodeFamilyF w = .nopFamilyF (fieldX w) (fieldKk w) := by
  simp only [selectsFamilyF, List.contains_eq_mem, decide_eq_false_iff_not, List.mem_cons, not_or] at h
  simp [decodeFamilyF, h]

end Sys2Proof
end

section
/-! ## Decoding an encoded instruction -/

namespace Sys2Proof

/-- The word of a well-formed instruction selects it again: a selecting low byte or nibble finds its arm, and the operand
of a no-op selects none (R83). -/
theorem decode_encode {i : Instr} (h : i.wellFormed = true) : decode (encode i) = i := by
  cases i with
  | nopFamily0 nnn =>
    have hkk : selectsFamily0 (fieldKk (packNnn 0x0#4 nnn)) = false := by simpa [Instr.wellFormed] using h
    rw [encode, decode_family0 (fieldOp_packNnn ..), decodeFamily0_other hkk, fieldNnn_packNnn]
  | nopFamily8 x y n =>
    have hn : selectsFamily8 (fieldN (packXYN 0x8#4 x y n)) = false := by simpa [Instr.wellFormed] using h
    rw [encode, decode_family8 (fieldOp_packXYN ..), decodeFamily8_other hn]
    simp
  | nopFamilyE x kk =>
    have hkk : selectsFamilyE (fieldKk (packXKk 0xE#4 x kk)) = false := by simpa [Instr.wellFormed] using h
    rw [encode, decode_familyE (fieldOp_packXKk ..), decodeFamilyE_other hkk]
    simp
  | nopFamilyF x kk =>
    have hkk : selectsFamilyF (fieldKk (packXKk 0xF#4 x kk)) = false := by simpa [Instr.wellFormed] using h
    rw [encode, decode_familyF (fieldOp_packXKk ..), decodeFamilyF_other hkk]
    simp
  | cls x | ret x => simp [encode, decode_family0, decodeFamily0]
  | ldVxVy x y | orVxVy x y | andVxVy x y | xorVxVy x y | addVxVy x y | subVxVy x y | shrVx x y | subnVxVy x y
  | shlVx x y => simp [encode, decode_family8, decodeFamily8]
  | skp x | sknp x => simp [encode, decode_familyE, decodeFamilyE]
  | ldVxDt x | ldVxK x | ldDtVx x | addIVx x | ldFVx x | ldBVx x | ldMemVx x | ldVxMem x =>
    simp [encode, decode_familyF, decodeFamilyF]
  | _ => simp [encode, decode]

/-- The decoder over bytes reads the instruction whose word stands first (R52). -/
theorem decodeBytes_encodeBytes {i : Instr} (h : i.wellFormed = true) (rest : List Byte) :
    decodeBytes (encodeBytes i ++ rest) = .ok (i, rest) := by
  simp [encodeBytes, decodeBytes, decode_encode h]

/-- Settles O1: over words, and over bytes by their first word. -/
theorem decodeOfEncodeIsTheInstruction : Obligations.DecodeOfEncodeIsTheInstruction :=
  fun _ h => ⟨decode_encode h, decodeBytes_encodeBytes h⟩

/-- Settles O4: each word is evaluated. -/
theorem wordsWrittenOutDecodeAsTheMapSays : Obligations.WordsWrittenOutDecodeAsTheMapSays := by
  unfold Obligations.WordsWrittenOutDecodeAsTheMapSays
  decide

end Sys2Proof
end

section
/-! ## Every word decodes to a well-formed instruction -/

namespace Sys2Proof

/-! In each family the no-op stands only for the words that no other arm takes (R82). -/

theorem wellFormed_decodeFamily0 (w : Word) : (decodeFamily0 w).wellFormed = true := by
  unfold decodeFamily0
  split_ifs
  case neg => simp [Instr.wellFormed, selectsFamily0, *]
  all_goals rfl

theorem wellFormed_decodeFamily8 (w : Word) : (decodeFamily8 w).wellFormed = true := by
  unfold decodeFamily8
  split_ifs
  case neg => simp [Instr.wellFormed, selectsFamily8, *]
  all_goals rfl

theorem wellFormed_decodeFamilyE (w : Word) : (decodeFamilyE w).wellFormed = true := by
  unfold decodeFamilyE
  split_ifs
  case neg => simp [Instr.wellFormed, selectsFamilyE, *]
  all_goals rfl

theorem wellFormed_decodeFamilyF (w : Word) : (decodeFamilyF w).wellFormed = true := by
  unfold decodeFamilyF
  split_ifs
  case neg => simp [Instr.wellFormed, selectsFamilyF, *]
  all_goals rfl

/-- The instruction of every word is well-formed (R81). -/
theorem wellFormed_decode (w : Word) : (decode w).wellFormed = true := by
  unfold decode
  split
  case h_1 => exact wellFormed_decodeFamily0 w
  case h_9 => exact wellFormed_decodeFamily8 w
  case h_15 => exact wellFormed_decodeFamilyE w
  case h_16 => exact wellFormed_decodeFamilyF w
  all_goals rfl

/-- Settles O2: the instruction of a word is well-formed, and has every bit of the word. -/
theorem everyWordIsOneWellFormedInstruction : Obligations.EveryWordIsOneWellFormedInstruction :=
  fun w => ⟨wellFormed_decode w, encode_decode w⟩

end Sys2Proof
end

section
/-! ## The opcode table -/

namespace Sys2Proof.Machine

/-! ### Which words fit a row -/

/-- The family of a word written as a number. -/
@[simp] theorem fieldOp_ofNat (k : Nat) : fieldOp (BitVec.ofNat 16 k) = BitVec.ofNat 4 (k / 4096) := by
  apply BitVec.eq_of_toNat_eq; rw [fieldOp, toNat_field]; simp; omega
/-- The field x of a word written as a number. -/
@[simp] theorem fieldX_ofNat (k : Nat) : fieldX (BitVec.ofNat 16 k) = BitVec.ofNat 4 (k / 256) := by
  apply BitVec.eq_of_toNat_eq; rw [fieldX, toNat_field]; simp; omega
/-- The field y of a word written as a number. -/
@[simp] theorem fieldY_ofNat (k : Nat) : fieldY (BitVec.ofNat 16 k) = BitVec.ofNat 4 (k / 16) := by
  apply BitVec.eq_of_toNat_eq; rw [fieldY, toNat_field]; simp; omega
/-- The low nibble of a word written as a number. -/
@[simp] theorem fieldN_ofNat (k : Nat) : fieldN (BitVec.ofNat 16 k) = BitVec.ofNat 4 k := by
  apply BitVec.eq_of_toNat_eq; rw [fieldN, toNat_field]; simp
/-- The low byte of a word written as a number. -/
@[simp] theorem fieldKk_ofNat (k : Nat) : fieldKk (BitVec.ofNat 16 k) = BitVec.ofNat 8 k := by
  apply BitVec.eq_of_toNat_eq; rw [fieldKk, toNat_field]; simp

/-- A word is told by its fields op, x and kk. -/
theorem packXKk_eq_iff {op x : Nibble} {kk : Byte} {w : Word} :
    packXKk op x kk = w ↔ op = fieldOp w ∧ x = fieldX w ∧ kk = fieldKk w := by
  constructor
  · rintro rfl; simp
  · rintro ⟨rfl, rfl, rfl⟩; exact packXKk_fields w

/-- A word is told by its fields op, x, y and n. -/
theorem packXYN_eq_iff {op x y n : Nibble} {w : Word} :
    packXYN op x y n = w ↔ op = fieldOp w ∧ x = fieldX w ∧ y = fieldY w ∧ n = fieldN w := by
  constructor
  · rintro rfl; simp
  · rintro ⟨rfl, rfl, rfl, rfl⟩; exact packXYN_fields w

/-- The family of a word under a mask. -/
theorem fieldOp_and (w m : Word) : fieldOp (w &&& m) = fieldOp w &&& fieldOp m := BitVec.extractLsb'_and

theorem and_nibbleOnes (a : Nibble) : a &&& 0xF#4 = a := BitVec.and_allOnes
theorem and_byteOnes (b : Byte) : b &&& 0xFF#8 = b := BitVec.and_allOnes

/-- A row that fixes the family alone. -/
theorem fits_maskOp (name : String) (w p : Word) : (OpcodeRow.mk name 0xF000#16 p).fits w =
    decide (fieldOp w = fieldOp p ∧ 0#4 = fieldX p ∧ 0#8 = fieldKk p) := by
  have hmask : packXKk (fieldOp w) 0#4 0#8 = w &&& 0xF000#16 := by
    rw [packXKk_eq_iff]
    simp [fieldOp, fieldX, fieldKk, BitVec.extractLsb'_and, and_nibbleOnes]
  rw [OpcodeRow.fits, ← hmask, beq_eq_decide]; simp only [packXKk_eq_iff]

/-- A row that fixes the family and the low byte. -/
theorem fits_maskKk (name : String) (w p : Word) : (OpcodeRow.mk name 0xF0FF#16 p).fits w =
    decide (fieldOp w = fieldOp p ∧ 0#4 = fieldX p ∧ fieldKk w = fieldKk p) := by
  have hmask : packXKk (fieldOp w) 0#4 (fieldKk w) = w &&& 0xF0FF#16 := by
    rw [packXKk_eq_iff]
    simp [fieldOp, fieldX, fieldKk, BitVec.extractLsb'_and, and_nibbleOnes, and_byteOnes]
  rw [OpcodeRow.fits, ← hmask, beq_eq_decide]; simp only [packXKk_eq_iff]

/-- A row that fixes the family and the low nibble. -/
theorem fits_maskN (name : String) (w p : Word) : (OpcodeRow.mk name 0xF00F#16 p).fits w =
    decide (fieldOp w = fieldOp p ∧ 0#4 = fieldX p ∧ 0#4 = fieldY p ∧ fieldN w = fieldN p) := by
  have hmask : packXYN (fieldOp w) 0#4 0#4 (fieldN w) = w &&& 0xF00F#16 := by
    rw [packXYN_eq_iff]
    simp [fieldOp, fieldX, fieldY, fieldN, BitVec.extractLsb'_and, and_nibbleOnes]
  rw [OpcodeRow.fits, ← hmask, beq_eq_decide]; simp only [packXYN_eq_iff]

/-! ### The search in one family -/

/-- The rows of one family, in table order. -/
def familyRows (op : Nibble) : List OpcodeRow := opcodeTable.filter fun r => fieldOp r.pattern == op

/-- No row of another family fits, so the first fitting row is the first in the word's own family (R74). -/
theorem find?_opcodeTable (w : Word) :
    opcodeTable.find? (fun r => r.fits w) = (familyRows (fieldOp w)).find? (fun r => r.fits w) := by
  have hmask : ∀ r ∈ opcodeTable, fieldOp r.mask = 0xF#4 := by decide
  rw [familyRows, List.find?_filter]
  refine List.find?_congr fun r hr => ?_
  cases hfit : r.fits w with
  | false => simp
  | true =>
    have hop : fieldOp w = fieldOp r.pattern := by
      rw [← eq_of_beq hfit, fieldOp_and, hmask r hr, and_nibbleOnes]
    simp [hop]

/-- In a family of one row that row is found. -/
theorem find?_onlyRow {w : Word} {op : Nibble} {name : String} {p : Word} (hop : fieldOp w = op)
    (hrows : familyRows op = [⟨name, 0xF000#16, p⟩]) (hp : packXKk op 0#4 0#8 = p) :
    (familyRows (fieldOp w)).find? (fun r => r.fits w) = some ⟨name, 0xF000#16, p⟩ := by
  rw [hop, hrows]
  refine List.find?_cons_of_pos ?_
  rw [fits_maskOp]
  simpa [hop] using packXKk_eq_iff.mp hp

/-! In a family of several rows the search asks for low bytes or nibbles in the order of the arms (R75 to R78). -/

theorem find?_family0 {w : Word} (h : fieldOp w = 0x0#4) :
    (familyRows 0x0#4).find? (fun r => r.fits w) = some (opcodeRow (decodeFamily0 w)) := by
  have hrows : familyRows 0x0#4 = [.cls 0, .ret 0, .nopFamily0 0].map opcodeRow := rfl
  rw [hrows, decodeFamily0]
  split_ifs <;> simp [opcodeRow, fits_maskKk, fits_maskOp, *]

theorem find?_family8 {w : Word} (h : fieldOp w = 0x8#4) :
    (familyRows 0x8#4).find? (fun r => r.fits w) = some (opcodeRow (decodeFamily8 w)) := by
  have hrows : familyRows 0x8#4 = [.ldVxVy 0 0, .orVxVy 0 0, .andVxVy 0 0, .xorVxVy 0 0, .addVxVy 0 0, .subVxVy 0 0,
    .shrVx 0 0, .subnVxVy 0 0, .shlVx 0 0, .nopFamily8 0 0 0].map opcodeRow := rfl
  rw [hrows, decodeFamily8]
  split_ifs <;> simp [opcodeRow, fits_maskN, fits_maskOp, *]

theorem find?_familyE {w : Word} (h : fieldOp w = 0xE#4) :
    (familyRows 0xE#4).find? (fun r => r.fits w) = some (opcodeRow (decodeFamilyE w)) := by
  have hrows : familyRows 0xE#4 = [.skp 0, .sknp 0, .nopFamilyE 0 0].map opcodeRow := rfl
  rw [hrows, decodeFamilyE]
  split_ifs <;> simp [opcodeRow, fits_maskKk, fits_maskOp, *]

theorem find?_familyF {w : Word} (h : fieldOp w = 0xF#4) :
    (familyRows 0xF#4).find? (fun r => r.fits w) = some (opcodeRow (decodeFamilyF w)) := by
  have hrows : familyRows 0xF#4 = [.ldVxDt 0, .ldVxK 0, .ldDtVx 0, .addIVx 0, .ldFVx 0, .ldBVx 0, .ldMemVx 0,
    .ldVxMem 0, .nopFamilyF 0 0].map opcodeRow := rfl
  rw [hrows, decodeFamilyF]
  split_ifs <;> simp [opcodeRow, fits_maskKk, fits_maskOp, *]

/-- Settles O3: the search in the whole table is one in the word's family, whose rows stand in the order of the decoder's
arms. -/
theorem decodeSelectsTheFirstFittingRow : Obligations.DecodeSelectsTheFirstFittingRow := by
  intro w
  rw [find?_opcodeTable]
  have hlt := (fieldOp w).isLt
  unfold decode
  split
  case h_1 h => rw [fieldOp_eq_of_toNat h]; exact find?_family0 (fieldOp_eq_of_toNat h)
  case h_9 h => rw [fieldOp_eq_of_toNat h]; exact find?_family8 (fieldOp_eq_of_toNat h)
  case h_15 h => rw [fieldOp_eq_of_toNat h]; exact find?_familyE (fieldOp_eq_of_toNat h)
  case h_16 =>
    have h : (fieldOp w).toNat = 15 := by simp only [imp_false] at *; omega
    rw [fieldOp_eq_of_toNat h]; exact find?_familyF (fieldOp_eq_of_toNat h)
  case h_2 h | h_3 h | h_4 h | h_5 h | h_6 h | h_7 h | h_8 h | h_10 h | h_11 h | h_12 h | h_13 h | h_14 h =>
    exact find?_onlyRow (fieldOp_eq_of_toNat h) rfl rfl

end Sys2Proof.Machine
end

section
/-! ## A cycle of a legal engine answers a next state -/

namespace Sys2Proof.Machine

/-- A range check answers a next state, in memory or not (R55, log entry 4). -/
theorem withRange_answers_next (n : Nat) (word : Word) (s done : State) : ∃ t, withRange n word s done = .next t := by
  by_cases h : rangeInMemory s.i.toNat n
  · exact ⟨_, withRange_inside h⟩
  · exact ⟨_, withRange_outside h⟩

/-- A key test answers a next state, for a key number or not (R244, log entry 4). -/
theorem withKey_answers_next (x : Nibble) (word : Word) (s : State) (done : Bool → State) :
    ∃ t, withKey x word s done = .next t := by
  by_cases h : (s.getV x).toNat < 16
  · exact ⟨_, withKey_inside ⟨_, h⟩ rfl⟩
  · exact ⟨_, withKey_outside (by omega)⟩

/-- With SP in 0..16 every instruction answers a next state (R27). -/
theorem exec_answers_next (i : Instr) {s : State} (hsp : s.sp.toNat ≤ 16) : ∃ t, exec i s = .next t := by
  cases i with
  | ret x =>
    rcases s.sp_cases with h0 | ⟨j, hj⟩ | h16
    · exact ⟨_, exec_ret_empty h0⟩
    · exact ⟨_, exec_ret_pop hj⟩
    · omega
  | call nnn =>
    by_cases hfree : s.sp.toNat < 16
    · exact ⟨_, exec_call_free hfree⟩
    · exact ⟨_, exec_call_full (by omega)⟩
  | ldVxK x =>
    simp only [exec, execLdVxK]
    split <;> exact ⟨_, rfl⟩
  | drw x y n => exact withRange_answers_next ..
  | ldBVx x => exact withRange_answers_next ..
  | ldMemVx x => exact withRange_answers_next ..
  | ldVxMem x => exact withRange_answers_next ..
  | skp x => exact withKey_answers_next x _ s fun pressed => s.skipIf pressed
  | sknp x => exact withKey_answers_next x _ s fun pressed => s.skipIf !pressed
  | _ => exact ⟨_, rfl⟩

/-- The end of the cycle, where the execute step leaves the engine Running (R104). -/
theorem completeCycle_of_running {t : State} (h : t.status = .running) : completeCycle (.next t) = .next t.tick := by
  simp only [completeCycle, h]

/-- The end of the cycle, where the execute step raised a fault (R105). -/
theorem completeCycle_of_faulted {t : State} {f : FatalFault} (h : t.status = .faulted f) :
    completeCycle (.next t) = .next t := by
  simp only [completeCycle, h]

/-- Settles O12: a Faulted engine and a failed fetch answer a next state, and so does the execute step of the
instruction fetched, because the invariant bounds SP. -/
theorem everyCycleOfALegalEngineAnswersNext : Obligations.EveryCycleOfALegalEngineAnswersNext := by
  intro s hs
  cases hrun : s.status with
  | faulted f => exact ⟨_, step_of_faulted hrun⟩
  | running =>
    cases hf : s.fetch with
    | none => exact ⟨_, step_of_no_fetch hrun hf⟩
    | some w =>
      obtain ⟨t, ht⟩ := exec_answers_next (decode w) (s := s.advance) hs.sp_le
      rw [step_of_fetch hrun hf, ht]
      cases hend : t.status with
      | running => exact ⟨_, completeCycle_of_running hend⟩
      | faulted f => exact ⟨_, completeCycle_of_faulted hend⟩

end Sys2Proof.Machine
end

section
/-! ## No-ops -/

namespace Sys2Proof.Machine

/-- The four no-op rows (R80). -/
inductive IsNoOp : Instr → Prop where
  | family0 (nnn) : IsNoOp (.nopFamily0 nnn)
  | family8 (x y n) : IsNoOp (.nopFamily8 x y n)
  | familyE (x kk) : IsNoOp (.nopFamilyE x kk)
  | familyF (x kk) : IsNoOp (.nopFamilyF x kk)

/-- The execute step of a no-op changes nothing (R80). -/
theorem exec_of_isNoOp {i : Instr} (h : IsNoOp i) (s : State) : exec i s = .next s := by
  cases h <;> rfl

/-- The cycle of a no-op advances PC and ticks the timer (R80, R102, R104). -/
theorem step_of_isNoOp {s : State} {w : Word} (hrun : s.status = .running) (hf : s.fetch = some w)
    (h : IsNoOp (decode w)) : step s = .next s.advance.tick := by
  rw [step_of_fetch hrun hf, exec_of_isNoOp h, completeCycle_of_running (t := s.advance) hrun]

/-- Settles O30: each of the words decodes to the no-op of its family. -/
theorem unrecognisedSecondaryOpcodesAreNoOps : Obligations.UnrecognisedSecondaryOpcodesAreNoOps := by
  refine ⟨fun x y n kk s => ⟨exec_of_isNoOp (.family8 x y n) s, exec_of_isNoOp (.familyE x kk) s,
    exec_of_isNoOp (.familyF x kk) s⟩, fun s w hrun hf hw => step_of_isNoOp hrun hf ?_⟩
  rcases hw with ⟨hop, hn⟩ | ⟨hop, hkk⟩ | ⟨hop, hkk⟩
  · have hsel : selectsFamily8 (fieldN w) = false := by
      have hothers : ∀ n ∈ [0x8#4, 0x9#4, 0xA#4, 0xB#4, 0xC#4, 0xD#4, 0xF#4], selectsFamily8 n = false := by decide
      exact hothers _ hn
    rw [decode_family8 hop, decodeFamily8_other hsel]
    exact .family8 ..
  · have hsel : selectsFamilyE (fieldKk w) = false := (List.contains_eq_mem ..).trans (decide_eq_false hkk)
    rw [decode_familyE hop, decodeFamilyE_other hsel]
    exact .familyE ..
  · have hsel : selectsFamilyF (fieldKk w) = false := (List.contains_eq_mem ..).trans (decide_eq_false hkk)
    rw [decode_familyF hop, decodeFamilyF_other hsel]
    exact .familyF ..

end Sys2Proof.Machine
end

/-! # Cycle family: fetch, execute and timer tick, and what a faulting cycle leaves (40_cycle.md) -/

section
/-! ## The timer tick -/

namespace Sys2Proof.Machine

/-- The execute step of `LD DT,Vx` (R251). -/
theorem exec_ldDtVx (x : Nibble) (s : State) : exec (.ldDtVx x) s = .next { s with dt := s.getV x } := rfl

/-- The execute step of `LD Vx,DT` (R250). -/
theorem exec_ldVxDt (x : Nibble) (s : State) : exec (.ldVxDt x) s = .next (s.setV x s.dt) := rfl

/-- An instruction other than `LD DT,Vx` leaves DT (R29). -/
theorem exec_dt {i : Instr} {s t : State} (h : exec i s = .next t) (hi : ∀ x, i ≠ .ldDtVx x) : t.dt = s.dt := by
  cases exec_effect h with
  | setsTimer x => exact absurd rfl (hi x)
  | _ => rfl

/-- A cycle that completes is the execute step of the fetched word and then the tick (R100, R104). -/
theorem step_completed {s t : State} {w : Word} (hrun : s.status = .running) (hf : s.fetch = some w)
    (h : step s = .next t) (ht : t.status = .running) : ∃ u, exec (decode w) s.advance = .next u ∧ t = u.tick := by
  rw [step_of_fetch hrun hf] at h
  obtain ⟨u, hu, ⟨-, htick⟩ | ⟨hstop, rfl⟩⟩ := completeCycle_cases h
  · exact ⟨u, hu, htick⟩
  · exact absurd ht hstop

/-- Settles O7: the cycle ends with the tick of the state that the execute step left, whose DT is the old one but for
`LD DT,Vx`. -/
theorem timerTicksInEveryCompletedCycle : Obligations.TimerTicksInEveryCompletedCycle := by
  intro s t w hrun hf h ht
  obtain ⟨u, hu, rfl⟩ := step_completed hrun hf h ht
  refine ⟨fun x hx => ?_, fun hx => ?_, fun x hx => ?_⟩
  · rw [hx, exec_ldDtVx] at hu
    obtain rfl := Host.Outcome.next.inj hu
    exact toNat_countDown _
  · rw [State.tick_dt, toNat_countDown, exec_dt hu hx, State.advance_dt]
  · rw [hx, exec_ldVxDt] at hu
    obtain rfl := Host.Outcome.next.inj hu
    rw [State.getV_tick, State.getV_setV_same, State.advance_dt]

end Sys2Proof.Machine
end

section
/-! ## Faults -/

namespace Sys2Proof.Machine

/-- A report in a state that entered a fault is of that fault, and nothing but STATUS has changed (R301). -/
theorem State.report_of_enterFault {s t : State} {f g : FatalFault} (ht : t = s.enterFault g)
    (hfault : t.status = .faulted f) : f = g ∧ t = { s with status := .faulted g } := by
  subst ht
  exact ⟨(Status.faulted.inj hfault).symm, rfl⟩

/-- Settles O8: a failed fetch and each fault of an execute step enter the fault in the state before the cycle. -/
theorem faultingCycleChangesOnlyStatus : Obligations.FaultingCycleChangesOnlyStatus := by
  intro s t f hrun h hfault
  rcases step_cases h with ⟨⟨g, hg⟩, -⟩ | ⟨-, hpc, ht⟩ | ⟨w, u, -, hf, hu, ⟨hurun, rfl⟩ | ⟨-, rfl⟩⟩
  · exact absurd (hrun.symm.trans hg) nofun
  · obtain ⟨rfl, ht⟩ := State.report_of_enterFault ht hfault
    exact ⟨ht, rfl, State.fetch_eq_none_iff.mpr hpc⟩
  · exact absurd (hurun.symm.trans hfault) nofun
  · cases exec_status hu with
    | kept hk => exact absurd (hrun.symm.trans (hk.symm.trans hfault)) nofun
    | overflow ht =>
      obtain ⟨rfl, ht⟩ := State.report_of_enterFault (ht.trans (s.stoppedWith_advance w .stackOverflow)) hfault
      exact ⟨ht, rfl, hf⟩
    | underflow ht =>
      obtain ⟨rfl, ht⟩ := State.report_of_enterFault (ht.trans (s.stoppedWith_advance w .stackUnderflow)) hfault
      exact ⟨ht, rfl, hf⟩
    | memory ht =>
      obtain ⟨rfl, ht⟩ := State.report_of_enterFault
        (ht.trans (s.stoppedWith_advance w fun pc word => .memoryOutOfRange pc word _)) hfault
      exact ⟨ht, rfl, hf⟩
    | key k ht =>
      obtain ⟨rfl, ht⟩ := State.report_of_enterFault
        (ht.trans (s.stoppedWith_advance w fun pc word => .keyIndexOutOfRange pc word k)) hfault
      exact ⟨ht, rfl, hf⟩

/-- A run of one step more is the first step and then the run from the state that it answers. -/
theorem run_succ_of_step (M : Host.Core) {s t : M.State} (h : M.step s = .next t) (n : Nat) :
    M.run (n + 1) s = M.run n t := by
  rw [Host.Core.run, h]

/-- Settles O6, by induction on the number of cycles: each answers the Faulted engine as it is. -/
theorem faultedEngineStaysAsItIs : Obligations.FaultedEngineStaysAsItIs := by
  intro s f hs n
  induction n with
  | zero => rfl
  | succ n ih => exact (run_succ_of_step core (step_of_faulted hs) n).trans ih

end Sys2Proof.Machine
end

section
/-! ## PC and the random-byte source -/

namespace Sys2Proof.Machine

/-- An execute step that raises no fault leaves PC, but for returns, calls, jumps, skips and the key wait (R109). -/
theorem exec_pc {i : Instr} {s t : State} (h : exec i s = .next t) (ht : t.status = .running)
    (hret : ∀ x, i ≠ .ret x) (hcall : ∀ nnn, i ≠ .call nnn) (hjump : ¬ IsJump i) (hskip : ¬ IsSkip i)
    (hwait : ∀ x, i ≠ .ldVxK x) : t.pc = s.pc := by
  cases exec_effect h with
  | stops f => exact absurd ht nofun
  | pops x => exact absurd rfl (hret x)
  | pushes nnn => exact absurd rfl (hcall nnn)
  | jumps hi => exact absurd hi hjump
  | skips hi => exact absurd hi hskip
  | rewinds x => exact absurd rfl (hwait x)
  | _ => rfl

/-- Settles O20: each effect on PC belongs to an instruction that the statement excludes, or is that of a fault. -/
theorem otherInstructionsLeavePcAtTheNextWord : Obligations.OtherInstructionsLeavePcAtTheNextWord := by
  intro i s t _ h ht hret hjp hcall hseKk hsneKk hseVy hsneVy hjpV0 hskp hsknp hwait
  refine exec_pc h ht hret hcall (fun hi => ?_) (fun hi => ?_) hwait
  · cases hi with
    | jp nnn => exact hjp nnn rfl
    | jpV0Nnn nnn => exact hjpV0 nnn rfl
  · cases hi with
    | seVxKk x kk => exact hseKk x kk rfl
    | sneVxKk x kk => exact hsneKk x kk rfl
    | seVxVy x y n => exact hseVy x y n rfl
    | sneVxVy x y n => exact hsneVy x y n rfl
    | skp x => exact hskp x rfl
    | sknp x => exact hsknp x rfl

/-- The execute step of `RND` draws one byte and writes it masked (R202). -/
theorem exec_rndVxKk (x : Nibble) (kk : Byte) (s : State) :
    exec (.rndVxKk x kk) s = .next (s.drawRandom.setV x (s.randomByte &&& kk)) := rfl

/-- Settles O21: the execute step of `RND` draws one byte, and no effect of another instruction draws. -/
theorem onlyRndDrawsRandomBytes : Obligations.OnlyRndDrawsRandomBytes := by
  intro i s t h
  constructor
  · rintro ⟨x, kk, rfl⟩
    rw [exec_rndVxKk] at h
    obtain rfl := Host.Outcome.next.inj h
    rw [State.setV_rngDraws, State.drawRandom_rngDraws]
  · intro hi
    cases exec_effect h with
    | setsRandom x kk => exact absurd rfl (hi x kk)
    | _ => rfl

end Sys2Proof.Machine
end

section
/-! ## The whole cycle -/

namespace Sys2Proof.Machine

/-- Settles O5: the bytes at PC are the fetched word, which decodes to `i`, and the cycle ends with the tick or, after
a fault, nothing. -/
theorem stepRunsTheDecodedInstruction : Obligations.StepRunsTheDecodedInstruction := by
  intro s
  refine ⟨fun f => step_of_faulted, fun hrun hpc => step_of_no_fetch hrun (State.fetch_eq_none_iff.mpr hpc),
    fun i hwf hrun hpc hw => ?_⟩
  have hf : s.fetch = some (encode i) := State.fetch_eq_some_iff.mpr ⟨hpc, hw.symm⟩
  have hadvance : { s with pc := s.pc + 2 } = s.advance := rfl
  rw [step_of_fetch hrun hf, decode_encode hwf, hadvance]
  cases exec i s.advance with
  | next t =>
    cases ht : t.status with
    | running => exact (completeCycle_of_running ht).trans (congrArg _ (if_pos ht).symm)
    | faulted f =>
      have hstop : t.status ≠ .running := fun hrun => absurd (ht.symm.trans hrun) nofun
      exact (completeCycle_of_faulted ht).trans (congrArg _ (if_neg hstop).symm)
  | fault r => rfl
  | refused r => rfl

end Sys2Proof.Machine
end

/-! # Flow family: family 0, jumps and calls (41_flow.md, with the computed jump of 45_index_jump_random.md R201) -/

section
/-! ## Calls and returns -/

namespace Sys2Proof.Machine

/-- The number below an SP that is one above an entry's index is that index (R121). -/
theorem State.sp_sub_one {s : State} {j : Fin 16} (h : s.sp.toNat = j.val + 1) :
    s.sp - 1 = BitVec.ofNat 8 j.val := by
  have := j.isLt
  bv_omega

/-- Settles O24: SP - 1 is the index of the entry popped. -/
theorem retPopsTheReturnAddress : Obligations.RetPopsTheReturnAddress := by
  intro x s j hj
  rw [exec_ret_pop hj, State.sp_sub_one hj]

/-- Settles O25, by the rule of `RET` with SP = 0. -/
theorem retOnAnEmptyStackFaults : Obligations.RetOnAnEmptyStackFaults := fun _ _ => exec_ret_empty

/-- A push stores PC at the entry at SP (R124). -/
theorem State.get_push_same {s : State} (h : s.sp.toNat < 16) {j : Fin 16} (hj : s.sp.toNat = j.val) :
    (s.push h).stack.get j = s.pc := by
  simp [Vector.get_eq_getElem, hj]

/-- With a free entry, a push adds one to SP without a wrap (R27, R124). -/
theorem State.toNat_push_sp {s : State} (h : s.sp.toNat < 16) : (s.push h).sp.toNat = s.sp.toNat + 1 := by
  rw [State.push_sp]
  bv_omega

/-- Settles O27: the state after a `CALL` is that of the push, with PC at the target. -/
theorem callPushesTheReturnAddress : Obligations.CallPushesTheReturnAddress := by
  intro nnn s j hj
  have hfree : s.sp.toNat < 16 := hj ▸ j.isLt
  refine ⟨_, exec_call_free hfree, rfl, toNat_addrOperand nnn, ?_, State.get_push_same hfree hj, fun k hk => ?_⟩
  · rw [← hj]
    exact State.toNat_push_sp hfree
  · have hne : k.val ≠ s.sp.toNat := fun e => hk (Fin.ext (e.trans hj))
    exact State.get_push_of_ne hfree hne

/-- Settles O28, by the rule of `CALL` with a full stack. -/
theorem callOnAFullStackFaults : Obligations.CallOnAFullStackFaults := fun _ _ => exec_call_full

end Sys2Proof.Machine
end

section
/-! ## Jumps -/

namespace Sys2Proof.Machine

/-- The computed target is the sum nnn + V0 as a word (R201). -/
theorem computedTarget_eq_ofNat (s : State) (nnn : Addr) :
    computedTarget s nnn = BitVec.ofNat 16 (nnn.toNat + (s.getV 0x0#4).toNat) := by
  rw [← toNat_computedTarget, BitVec.ofNat_toNat, BitVec.setWidth_eq]

/-- The execute step of `JP nnn` (R123). -/
theorem exec_jp (nnn : Addr) (s : State) : exec (.jp nnn) s = .next { s with pc := addrOperand nnn } := rfl

/-- The execute step of `JP V0,nnn` (R201). -/
theorem exec_jpV0Nnn (nnn : Addr) (s : State) :
    exec (.jpV0Nnn nnn) s = .next { s with pc := computedTarget s nnn } := rfl

/-- Settles O29: both targets are the unmasked numbers as words. -/
theorem jumpsSetOnlyThePc : Obligations.JumpsSetOnlyThePc :=
  ⟨fun nnn s => by rw [exec_jp, addrOperand_eq_ofNat], fun nnn s => by rw [exec_jpV0Nnn, computedTarget_eq_ofNat]⟩

end Sys2Proof.Machine
end

section
/-! ## No-ops of family 0 -/

namespace Sys2Proof.Machine

/-- Settles O31: a word of family 0 whose low byte selects neither `CLS` nor `RET` decodes to the family's no-op. -/
theorem familyZeroOtherWordsAreNoOps : Obligations.FamilyZeroOtherWordsAreNoOps := by
  refine ⟨fun nnn => exec_of_isNoOp (.family0 nnn), fun s w hrun hf hop hcls hret => step_of_isNoOp hrun hf ?_⟩
  have hsel : selectsFamily0 (fieldKk w) = false := by
    simp [selectsFamily0, fieldKk, hcls, hret]
  rw [decode_family0 hop, decodeFamily0_other hsel]
  exact .family0 ..

end Sys2Proof.Machine
end

/-! # Skips family (42_skips.md) -/

section
/-! ## Skips on registers -/

namespace Sys2Proof.Machine

/-- `skipIf` with a test that decides `p` adds 2 to PC exactly when `p` holds (R140). -/
theorem State.skipIf_of_iff (s : State) {c : Bool} {p : Prop} [Decidable p] (h : c = true ↔ p) :
    s.skipIf c = { s with pc := if p then s.pc + 2 else s.pc } := by
  cases c with
  | true => rw [if_pos (h.mp rfl)]; rfl
  | false => rw [if_neg fun hp => Bool.false_ne_true (h.mpr hp)]; rfl

/-- The execute step of `SE Vx, kk` (R141). -/
theorem exec_seVxKk (x : Nibble) (kk : Byte) (s : State) :
    exec (.seVxKk x kk) s = .next (s.skipIf (s.getV x == kk)) := rfl

/-- The execute step of `SNE Vx, kk` (R142). -/
theorem exec_sneVxKk (x : Nibble) (kk : Byte) (s : State) :
    exec (.sneVxKk x kk) s = .next (s.skipIf (s.getV x != kk)) := rfl

/-- The execute step of `SE Vx, Vy` (R143), whatever its low nibble (D5). -/
theorem exec_seVxVy (x y n : Nibble) (s : State) :
    exec (.seVxVy x y n) s = .next (s.skipIf (s.getV x == s.getV y)) := rfl

/-- The execute step of `SNE Vx, Vy` (R144), whatever its low nibble (D5). -/
theorem exec_sneVxVy (x y n : Nibble) (s : State) :
    exec (.sneVxVy x y n) s = .next (s.skipIf (s.getV x != s.getV y)) := rfl

/-- Settles O32: each skip is `skipIf` with the test of its condition. -/
theorem skipsAddTwoToPcOnMatch : Obligations.SkipsAddTwoToPcOnMatch := by
  intro x y n kk s
  refine ⟨?_, ?_, ?_, ?_⟩
  · rw [exec_seVxKk, s.skipIf_of_iff beq_iff_eq]
  · rw [exec_sneVxKk, s.skipIf_of_iff bne_iff_ne]
  · rw [exec_seVxVy, s.skipIf_of_iff beq_iff_eq]
  · rw [exec_sneVxVy, s.skipIf_of_iff bne_iff_ne]

end Sys2Proof.Machine
end

/-! # Immediate family: immediate load and add (43_immediate.md) -/

section
/-! ## Immediate load and add -/

namespace Sys2Proof.Machine

/-- A register other than the written one is left unchanged (R21). -/
theorem State.getV_setV_of_ne {s : State} {x r : Nibble} {b : Byte} (h : r ≠ x) : (s.setV x b).getV r = s.getV r := by
  rw [State.getV_setV, if_neg h]

/-- The execute step of `LD Vx, kk` (R160). -/
theorem exec_ldVxKk (x : Nibble) (kk : Byte) (s : State) : exec (.ldVxKk x kk) s = .next (s.setV x kk) := rfl

/-- The execute step of `ADD Vx, kk` (R161). -/
theorem exec_addVxKk (x : Nibble) (kk : Byte) (s : State) :
    exec (.addVxKk x kk) s = .next (s.setV x (s.getV x + kk)) := rfl

/-- Settles O35: 6xkk is the encoding of the instruction, and the step writes the one register. -/
theorem loadImmediateWritesKk : Obligations.LoadImmediateWritesKk := by
  intro x kk s
  have hdecode : decode (encode (.ldVxKk x kk)) = .ldVxKk x kk := decode_encode rfl
  exact ⟨hdecode, _, exec_ldVxKk x kk s, rfl, s.getV_setV_same x kk, fun _ => State.getV_setV_of_ne⟩

/-- Settles O36: the one register that the step writes, VF or not, receives the sum of two bytes as a byte. -/
theorem addImmediateWrapsWithoutFlag : Obligations.AddImmediateWrapsWithoutFlag := by
  intro x kk s
  refine ⟨_, exec_addVxKk x kk s, rfl, ?_, fun _ => State.getV_setV_of_ne⟩
  rw [State.getV_setV_same, BitVec.toNat_add]

end Sys2Proof.Machine
end

/-! # ALU family: register to register operations (44_alu.md) -/

section
/-! ## Assign, OR, AND and XOR -/

namespace Sys2Proof.Machine

/-- The execute step of `LD Vx, Vy` (R171). -/
theorem exec_ldVxVy (x y : Nibble) (s : State) : exec (.ldVxVy x y) s = .next (s.setV x (s.getV y)) := rfl

/-- The execute step of `OR Vx, Vy` (R172). -/
theorem exec_orVxVy (x y : Nibble) (s : State) :
    exec (.orVxVy x y) s = .next (s.setV x (s.getV x ||| s.getV y)) := rfl

/-- The execute step of `AND Vx, Vy` (R173). -/
theorem exec_andVxVy (x y : Nibble) (s : State) :
    exec (.andVxVy x y) s = .next (s.setV x (s.getV x &&& s.getV y)) := rfl

/-- The execute step of `XOR Vx, Vy` (R174). -/
theorem exec_xorVxVy (x y : Nibble) (s : State) :
    exec (.xorVxVy x y) s = .next (s.setV x (s.getV x ^^^ s.getV y)) := rfl

/-- Settles O37: each step writes one register, and the bits of what it writes are those of the bitwise operator. -/
theorem logicWritesOnlyTheDestination : Obligations.LogicWritesOnlyTheDestination := by
  intro x y s
  refine ⟨⟨_, exec_ldVxVy x y s, rfl, s.getV_setV_same x _, fun _ => State.getV_setV_of_ne⟩,
    ⟨_, exec_orVxVy x y s, rfl, fun b _ => ?_, fun _ => State.getV_setV_of_ne⟩,
    ⟨_, exec_andVxVy x y s, rfl, fun b _ => ?_, fun _ => State.getV_setV_of_ne⟩,
    ⟨_, exec_xorVxVy x y s, rfl, fun b _ => ?_, fun _ => State.getV_setV_of_ne⟩⟩
  · rw [State.getV_setV_same, BitVec.getLsbD_or]
  · rw [State.getV_setV_same, BitVec.getLsbD_and]
  · rw [State.getV_setV_same, BitVec.getLsbD_xor]

end Sys2Proof.Machine
end

section
/-! ## The operations that leave a flag in VF -/

namespace Sys2Proof.Machine

/-! ### A result and then a flag, as read (R170, D7) -/

@[simp] theorem State.getV_setResultAndFlag_flagReg (s : State) (x : Nibble) (r f : Byte) :
    (s.setResultAndFlag x r f).getV flagReg = f := by
  rw [State.getV_setResultAndFlag, if_pos rfl]

/-- The flag does not overwrite a result whose destination is not VF. -/
theorem State.getV_setResultAndFlag_same {s : State} {x : Nibble} {r f : Byte} (hx : x ≠ flagReg) :
    (s.setResultAndFlag x r f).getV x = r := by
  rw [State.getV_setResultAndFlag, if_neg hx, if_pos rfl]

/-- A register that is neither the destination nor VF is left unchanged. -/
theorem State.getV_setResultAndFlag_of_ne {s : State} {x q : Nibble} {r f : Byte} (hx : q ≠ x) (hf : q ≠ flagReg) :
    (s.setResultAndFlag x r f).getV q = s.getV q := by
  rw [State.getV_setResultAndFlag, if_neg hf, if_neg hx]

/-! ### The values written -/

/-- The difference of two bytes, with the borrow lent before the subtraction so that none is truncated (R176, R178). -/
theorem toNat_byte_sub (a b : Byte) : (a - b).toNat = (a.toNat + 0x100 - b.toNat) % 256 := by
  have := b.isLt
  rw [BitVec.toNat_sub]
  omega

/-- A shift right by one halves (R177). -/
theorem toNat_byte_shiftRight_one (a : Byte) : (a >>> 1).toNat = a.toNat / 2 := by
  rw [BitVec.toNat_ushiftRight, Nat.shiftRight_eq_div_pow, pow_one]

/-- A shift left by one doubles modulo 256 (R179). -/
theorem toNat_byte_shiftLeft_one (a : Byte) : (a <<< 1).toNat = a.toNat * 2 % 256 := by
  rw [BitVec.toNat_shiftLeft, Nat.shiftLeft_eq, pow_one]

/-! ### The execute steps -/

/-- The execute step of `ADD Vx, Vy` (R175). -/
theorem exec_addVxVy (x y : Nibble) (s : State) : exec (.addVxVy x y) s =
    .next (s.setResultAndFlag x (s.getV x + s.getV y) (carryFlag (s.getV x) (s.getV y))) := rfl

/-- The execute step of `SUB Vx, Vy` (R176). -/
theorem exec_subVxVy (x y : Nibble) (s : State) : exec (.subVxVy x y) s =
    .next (s.setResultAndFlag x (s.getV x - s.getV y) (notBorrowFlag (s.getV x) (s.getV y))) := rfl

/-- The execute step of `SUBN Vx, Vy` (R178). -/
theorem exec_subnVxVy (x y : Nibble) (s : State) : exec (.subnVxVy x y) s =
    .next (s.setResultAndFlag x (s.getV y - s.getV x) (notBorrowFlag (s.getV y) (s.getV x))) := rfl

/-- The execute step of `SHR Vx` (R177): Vx in place, `y` not used (D6). -/
theorem exec_shrVx (x y : Nibble) (s : State) : exec (.shrVx x y) s =
    .next (s.setResultAndFlag x (s.getV x >>> 1) (shiftRightFlag (s.getV x))) := rfl

/-- The execute step of `SHL Vx` (R179): Vx in place, `y` not used (D6). -/
theorem exec_shlVx (x y : Nibble) (s : State) : exec (.shlVx x y) s =
    .next (s.setResultAndFlag x (s.getV x <<< 1) (shiftLeftFlag (s.getV x))) := rfl

/-! ### The statements -/

/-- Settles O38: the result is the sum of two bytes as a byte, and the flag its carry. -/
theorem addSetsCarry : Obligations.AddSetsCarry := by
  intro x y s
  refine ⟨_, exec_addVxVy x y s, rfl, fun hx => ?_, ?_, fun _ => State.getV_setResultAndFlag_of_ne⟩
  · rw [State.getV_setResultAndFlag_same hx, BitVec.toNat_add]
  · rw [State.getV_setResultAndFlag_flagReg, carryFlag_eq]

/-- Settles O39: both instructions leave a difference of two bytes and its NOT-borrow flag, SUBN with the operands
exchanged. -/
theorem subtractsSetNotBorrow : Obligations.SubtractsSetNotBorrow := by
  intro x y s
  refine ⟨⟨_, exec_subVxVy x y s, rfl, fun hx => ?_, ?_, fun _ => State.getV_setResultAndFlag_of_ne⟩,
    ⟨_, exec_subnVxVy x y s, rfl, fun hx => ?_, ?_, fun _ => State.getV_setResultAndFlag_of_ne⟩⟩
  · rw [State.getV_setResultAndFlag_same hx, toNat_byte_sub]
  · rw [State.getV_setResultAndFlag_flagReg, notBorrowFlag_eq]
  · rw [State.getV_setResultAndFlag_same hx, toNat_byte_sub]
  · rw [State.getV_setResultAndFlag_flagReg, notBorrowFlag_eq]

/-- Settles O40: result and flag are both computed from the old Vx, so the flag is the bit shifted out even when the
destination is VF. -/
theorem shiftsSetTheBitShiftedOut : Obligations.ShiftsSetTheBitShiftedOut := by
  intro x y s
  refine ⟨⟨_, exec_shrVx x y s, rfl, fun hx => ?_, ?_, fun _ => State.getV_setResultAndFlag_of_ne⟩,
    ⟨_, exec_shlVx x y s, rfl, fun hx => ?_, ?_, fun _ => State.getV_setResultAndFlag_of_ne⟩⟩
  · rw [State.getV_setResultAndFlag_same hx, toNat_byte_shiftRight_one]
  · rw [State.getV_setResultAndFlag_flagReg, toNat_shiftRightFlag]
  · rw [State.getV_setResultAndFlag_same hx, toNat_byte_shiftLeft_one]
  · rw [State.getV_setResultAndFlag_flagReg, toNat_shiftLeftFlag]

end Sys2Proof.Machine
end

/-! # Index and random family: index load and random byte (45_index_jump_random.md) -/

section
/-! ## Index load -/

namespace Sys2Proof.Machine

/-- The execute step of `LD I, nnn` (R200). -/
theorem exec_ldINnn (nnn : Addr) (s : State) : exec (.ldINnn nnn) s = .next { s with i := addrOperand nnn } := rfl

/-- Settles O41: Annn is the encoding of the instruction, and the step writes the operand as a word to I. -/
theorem loadIndexWritesNnn : Obligations.LoadIndexWritesNnn := by
  intro nnn s
  have hdecode : decode (encode (.ldINnn nnn)) = .ldINnn nnn := decode_encode rfl
  exact ⟨hdecode, by rw [exec_ldINnn, addrOperand_eq_ofNat]⟩

end Sys2Proof.Machine
end

section
/-! ## Random byte -/

namespace Sys2Proof.Machine

/-- The byte that a state draws is the free value at its draw counter (R202, D14, log entry 1). -/
theorem State.randomByte_eq (s : State) : s.randomByte = Config.randomByte s.rngDraws := rfl

/-- Settles O43: the step writes one register of the state whose draw counter has moved on, and the byte it masks was
drawn at the old counter. -/
theorem rndMasksTheDrawnByte : Obligations.RndMasksTheDrawnByte := by
  intro x kk s
  refine ⟨_, exec_rndVxKk x kk s, rfl, ?_, fun r hr => ?_⟩
  · rw [State.getV_setV_same, State.randomByte_eq]
  · rw [State.getV_setV_of_ne hr, State.getV_drawRandom]

end Sys2Proof.Machine
end

/-! # Display family: the display buffer, CLS and DRW (46_draw.md) -/

section
/-! ## Who writes the display -/

namespace Sys2Proof.Machine

/-- Settles O15: the two effects on the display are those of `CLS` and `DRW`. -/
theorem displayIsWrittenOnlyByClsAndDrw : Obligations.DisplayIsWrittenOnlyByClsAndDrw := by
  intro i s t h hcls hdrw
  cases exec_effect h with
  | clears x => exact absurd rfl (hcls x)
  | draws x y n => exact absurd rfl (hdrw x y n)
  | _ => rfl

/-- The execute step of `CLS` (R120). -/
theorem exec_cls (x : Nibble) (s : State) : exec (.cls x) s = .next { s with disp := Display.cleared } := rfl

/-- Every cell of a cleared display is off (R220). -/
theorem Display.get_cleared (k : Fin 2048) : Display.cleared.get k = false := by
  simp only [Display.cleared, Vector.get_eq_getElem, Vector.getElem_replicate]

/-- Settles O23: the step writes a cleared display and nothing else. -/
theorem clsTurnsEveryPixelOff : Obligations.ClsTurnsEveryPixelOff :=
  fun x s => ⟨_, exec_cls x s, rfl, Display.get_cleared⟩

end Sys2Proof.Machine
end

section
/-! ## A sprite on each pixel -/

namespace Sys2Proof.Machine

/-- The row byte `row` drawn at (x0, y) has a set bit over pixel (px, py), with wrapping (R221, R222). -/
def rowCovers (row : Byte) (x0 y px py : Nat) : Bool :=
  decide (py % 32 = y % 32) && decide ((px + 64 - x0 % 64) % 64 < 8) && row.getLsbD (7 - (px + 64 - x0 % 64) % 64)

/-- A sprite row inverts exactly the pixels that it covers (R221). -/
theorem Canvas.pixel_drawRow_eq_xor_rowCovers (c : Canvas) (row : Byte) (x0 y px py : Nat) :
    (c.drawRow row x0 y).1.pixel px py = (c.1.pixel px py ^^ rowCovers row x0 y px py) :=
  Canvas.pixel_drawRow c row x0 y px py

/-- A sprite row covers pixels of its own display row only. -/
theorem mod_eq_of_rowCovers {row : Byte} {x0 y px py : Nat} (h : rowCovers row x0 y px py = true) :
    py % 32 = y % 32 := by
  simp only [rowCovers, Bool.and_eq_true, decide_eq_true_eq] at h
  obtain ⟨⟨hy, -⟩, -⟩ := h
  exact hy

/-- A set bit of a row is over a pixel that is on exactly when an on pixel is covered by the row (R221, R223). -/
theorem exists_column_iff_exists_rowCovers {d : Display} {row : Byte} {x0 y : Nat} :
    ((List.range 8).any fun col => row.getLsbD (7 - col) && d.pixel (x0 + col) y) = true ↔
      ∃ px py, d.pixel px py = true ∧ rowCovers row x0 y px py = true := by
  simp only [List.any_eq_true, List.mem_range, Bool.and_eq_true, rowCovers, decide_eq_true_eq]
  constructor
  · rintro ⟨col, hcol, hbit, hon⟩
    have hdist : (x0 + col + 64 - x0 % 64) % 64 = col := by omega
    exact ⟨x0 + col, y, hon, ⟨rfl, by omega⟩, by rwa [hdist]⟩
  · rintro ⟨px, py, hon, ⟨hy, hcol⟩, hbit⟩
    refine ⟨_, hcol, hbit, ?_⟩
    have hcell : pixelIndex (x0 + (px + 64 - x0 % 64) % 64) y = pixelIndex px py :=
      pixelIndex_eq_iff.mpr ⟨by omega, hy.symm⟩
    rwa [Display.pixel, hcell]

/-- A sprite row collides exactly when it covers a pixel that is on (R223). -/
theorem Canvas.collided_drawRow_iff {c : Canvas} {row : Byte} {x0 y : Nat} :
    (c.drawRow row x0 y).2 = true ↔
      c.2 = true ∨ ∃ px py, c.1.pixel px py = true ∧ rowCovers row x0 y px py = true := by
  rw [Canvas.collided_drawRow, Bool.or_eq_true, exists_column_iff_exists_rowCovers]

/-- The last row of a sprite is drawn after the others, below them (R221). -/
theorem Canvas.drawRows_concat (c : Canvas) (x0 y : Nat) (rows : List Byte) (row : Byte) :
    c.drawRows x0 y (rows ++ [row]) = (c.drawRows x0 y rows).drawRow row x0 (y + rows.length) := by
  induction rows generalizing c y with
  | nil => rfl
  | cons r rs ih =>
    simp only [List.cons_append, Canvas.drawRows, List.length_cons, ih]
    rw [Nat.add_right_comm, Nat.add_assoc]

/-- A whole draw ends with its last row. -/
theorem Display.draw_concat (d : Display) (x0 y0 : Byte) (rows : List Byte) (row : Byte) :
    d.draw x0 y0 (rows ++ [row]) = (d.draw x0 y0 rows).drawRow row x0.toNat (y0.toNat + rows.length) :=
  Canvas.drawRows_concat ..

/-- A sprite of no rows covers nothing (D9). -/
@[simp] theorem spriteCovers_nil (x0 y0 : Byte) (px py : Nat) : spriteCovers x0 y0 [] px py = false := by
  simp [spriteCovers]

/-- A sprite of fewer than 32 rows does not reach the display row below its last one, although rows wrap. -/
theorem spriteCovers_below {x0 y0 : Byte} {rows : List Byte} {px py : Nat} (hlen : rows.length < 32)
    (hy : py % 32 = (y0.toNat + rows.length) % 32) : spriteCovers x0 y0 rows px py = false := by
  have hrow : (py + 32 - y0.toNat % 32) % 32 = rows.length := by omega
  simp [spriteCovers, hrow]

/-- A sprite covers what its last row covers and what the rows above it cover. -/
theorem spriteCovers_concat {x0 y0 : Byte} {rows : List Byte} {row : Byte} {px py : Nat} (hlen : rows.length < 32) :
    spriteCovers x0 y0 (rows ++ [row]) px py =
      (spriteCovers x0 y0 rows px py || rowCovers row x0.toNat (y0.toNat + rows.length) px py) := by
  by_cases hy : py % 32 = (y0.toNat + rows.length) % 32
  · have hrow : (py + 32 - y0.toNat % 32) % 32 = rows.length := by omega
    rw [spriteCovers_below hlen hy]
    simp [spriteCovers, rowCovers, hrow, hy]
  · have hrow : (py + 32 - y0.toNat % 32) % 32 ≠ rows.length := by omega
    have hget : (rows ++ [row])[(py + 32 - y0.toNat % 32) % 32]? = rows[(py + 32 - y0.toNat % 32) % 32]? := by
      grind
    simp [spriteCovers, rowCovers, hy, List.getD_eq_getElem?_getD, hget]

/-- A draw of at most 32 rows inverts exactly the pixels that the sprite covers: each row is on a display row of its own,
so no pixel is inverted twice (R221, R222). -/
theorem Display.pixel_draw (d : Display) (x0 y0 : Byte) (px py : Nat) {rows : List Byte} (hlen : rows.length ≤ 32) :
    (d.draw x0 y0 rows).1.pixel px py = (d.pixel px py ^^ spriteCovers x0 y0 rows px py) := by
  induction rows using List.reverseRecOn with
  | nil => simp
  | append_singleton rows row ih =>
    have hlt : rows.length < 32 := by simpa using hlen
    rw [Display.draw_concat, Canvas.pixel_drawRow_eq_xor_rowCovers, ih hlt.le, spriteCovers_concat hlt]
    cases hrow : rowCovers row x0.toNat (y0.toNat + rows.length) px py with
    | false => simp
    | true => simp [spriteCovers_below hlt (mod_eq_of_rowCovers hrow)]

/-- A draw of at most 32 rows collides exactly when the sprite covers a pixel that was on before it (R223). -/
theorem Display.collided_draw_iff {d : Display} {x0 y0 : Byte} {rows : List Byte} (hlen : rows.length ≤ 32) :
    (d.draw x0 y0 rows).2 = true ↔ ∃ px py, d.pixel px py = true ∧ spriteCovers x0 y0 rows px py = true := by
  induction rows using List.reverseRecOn with
  | nil => simp
  | append_singleton rows row ih =>
    have hlt : rows.length < 32 := by simpa using hlen
    have hfresh : ∀ px py, rowCovers row x0.toNat (y0.toNat + rows.length) px py = true →
        (d.draw x0 y0 rows).1.pixel px py = d.pixel px py := fun px py hrow => by
      rw [Display.pixel_draw d x0 y0 px py hlt.le, spriteCovers_below hlt (mod_eq_of_rowCovers hrow), Bool.xor_false]
    rw [Display.draw_concat, Canvas.collided_drawRow_iff, ih hlt.le]
    simp only [spriteCovers_concat hlt, Bool.or_eq_true, and_or_left, exists_or]
    refine or_congr_right (exists_congr fun px => exists_congr fun py => and_congr_left fun hrow => ?_)
    rw [hfresh px py hrow]

end Sys2Proof.Machine
end

section
/-! ## DRW -/

namespace Sys2Proof.Machine

/-- Each cell is the one of its own column and row (R31). -/
theorem pixelIndex_mod_div (k : Fin 2048) : pixelIndex (k.val % 64) (k.val / 64) = k := by
  apply Fin.ext
  simp only [pixelIndex]
  omega

/-- Some cell is as `p` says exactly when some coordinates inside the display name one (R31). -/
theorem exists_pixelIndex_iff {p : Fin 2048 → Prop} :
    (∃ px < 64, ∃ py < 32, p (pixelIndex px py)) ↔ ∃ k, p k := by
  constructor
  · rintro ⟨px, -, py, -, h⟩
    exact ⟨_, h⟩
  · rintro ⟨k, h⟩
    exact ⟨k.val % 64, by omega, k.val / 64, by omega, by rwa [pixelIndex_mod_div]⟩

/-- A draw of at most 32 rows collides exactly when it turns a cell off (R223). -/
theorem Display.collided_draw_iff_turns_off {d : Display} {x0 y0 : Byte} {rows : List Byte}
    (hlen : rows.length ≤ 32) :
    (d.draw x0 y0 rows).2 = true ↔ ∃ k, d.get k = true ∧ (d.draw x0 y0 rows).1.get k = false := by
  have hoff : ∀ px py, d.pixel px py = true ∧ spriteCovers x0 y0 rows px py = true ↔
      d.pixel px py = true ∧ (d.draw x0 y0 rows).1.pixel px py = false := fun px py =>
    and_congr_right fun hon => by rw [Display.pixel_draw d x0 y0 px py hlen, hon, Bool.true_xor, Bool.not_eq_false']
  simp only [Display.collided_draw_iff hlen, hoff]
  constructor
  · rintro ⟨px, py, h⟩
    exact ⟨pixelIndex px py, h⟩
  · rintro ⟨k, h⟩
    exact ⟨k.val % 64, k.val / 64, by rwa [Display.pixel, Display.pixel, pixelIndex_mod_div]⟩

/-- The collision flag is 1 exactly on a collision (R224). -/
theorem collisionFlag_eq_one_iff {c : Bool} : collisionFlag c = 1#8 ↔ c = true := by
  cases c <;> decide

/-- The execute step of `DRW` with its sprite in memory, or of no rows (R224, D9). -/
theorem exec_drw_inside {x y n : Nibble} {s : State} (h : rangeInMemory s.i.toNat n.toNat) :
    exec (.drw x y n) s = .next
      ({ s with disp := (s.drawSprite x y n).1 }.setV flagReg (collisionFlag (s.drawSprite x y n).2)) :=
  withRange_inside h

/-- A `DRW` that leaves a Running engine Running has its sprite in memory, or no rows (R224, R301). -/
theorem rangeInMemory_of_exec_drw {x y n : Nibble} {s t : State} (h : exec (.drw x y n) s = .next t)
    (ht : t.status = .running) : rangeInMemory s.i.toNat n.toNat := by
  rcases withRange_cases h with ⟨hr, -⟩ | ⟨-, rfl⟩
  · exact hr
  · cases ht

/-- The sprite of a `DRW` has no more rows than the display. -/
theorem State.length_sprite_le (s : State) (n : Nibble) : (s.loadBlock n.toNat).length ≤ 32 := by
  have := n.isLt
  rw [State.loadBlock, Memory.length_readBlock]
  omega

/-- Settles O45: the step draws a sprite of at most 15 rows, which inverts the pixels it covers and collides when it
turns one off, and then writes VF. -/
theorem drwXorsTheSpriteAndReportsCollision : Obligations.DrwXorsTheSpriteAndReportsCollision := by
  intro x y n s hrange
  have hlen := s.length_sprite_le n
  refine ⟨_, exec_drw_inside (hrange.imp_left (congrArg BitVec.toNat)), rfl,
    fun px _ py _ => Display.pixel_draw s.disp _ _ px py hlen, ?_, ?_, fun _ => State.getV_setV_of_ne⟩
  · rw [State.getV_setV_same, collisionFlag_eq]
    exact ite_eq_or_eq ..
  · rw [State.getV_setV_same, collisionFlag_eq_one_iff, State.drawSprite, Display.collided_draw_iff_turns_off hlen,
      ← exists_pixelIndex_iff]
    rfl

/-- Settles O46: the first draw leaves the coordinates, I and memory, so the second inverts the same pixels back, and
those it turns off are those that the first turned on. -/
theorem drwTwiceRestoresTheDisplay : Obligations.DrwTwiceRestoresTheDisplay := by
  intro x y n s t _ hx hy hexec ht
  have hrange : n = 0#4 ∨ s.i.toNat + n.toNat ≤ 0x1000 :=
    (rangeInMemory_of_exec_drw hexec ht).imp_left BitVec.eq_of_toNat_eq
  obtain ⟨t', hexec', hframe, hpixel, -, -, hregs⟩ := drwXorsTheSpriteAndReportsCollision x y n s hrange
  obtain rfl : t' = t := Host.Outcome.next.inj (hexec'.symm.trans hexec)
  have hi : t'.i = s.i := by rw [hframe]
  have hmem : t'.mem = s.mem := by rw [hframe]
  obtain ⟨u, hexecu, -, hpixelu, -, hflag, -⟩ := drwXorsTheSpriteAndReportsCollision x y n t' (by rwa [hi])
  rw [hregs x hx, hregs y hy, hi, hmem] at hpixelu
  have hdisp : u.disp = s.disp := Display.ext_pixel fun px py hpx hpy => by
    rw [hpixelu px hpx py hpy, hpixel px hpx py hpy, Bool.xor_assoc, Bool.xor_self, Bool.xor_false]
  refine ⟨u, hexecu, hdisp, hflag.trans ?_⟩
  rw [hdisp, ← exists_pixelIndex_iff]
  simp only [and_comm, Display.pixel]

end Sys2Proof.Machine
end

/-! # Keys family: key tests and key events (47_keys.md) -/

section
/-! ## SKP and SKNP -/

namespace Sys2Proof.Machine

/-- The execute step of `SKP Vx`: a skip on the flag of the key that Vx names (R241). -/
theorem exec_skp (x : Nibble) (s : State) :
    exec (.skp x) s = withKey x (encode (.skp x)) s fun pressed => s.skipIf pressed := rfl

/-- The execute step of `SKNP Vx`: a skip on the negated flag of the key that Vx names (R242). -/
theorem exec_sknp (x : Nibble) (s : State) :
    exec (.sknp x) s = withKey x (encode (.sknp x)) s fun pressed => s.skipIf !pressed := rfl

/-- A key test of a number that is no key raises KeyIndexOutOfRange, and changes nothing but STATUS and the PC that is
taken back (R244, R301). -/
theorem exec_of_testsAbsentKey {i : Instr} {s : State} {key : Byte} (h : s.TestsAbsentKey i key) :
    exec i s = .next (s.stoppedWith (.keyIndexOutOfRange (s.pc - 2) (encode i) key)) := by
  obtain ⟨x, rfl | rfl, rfl, habsent⟩ := h
  · exact (exec_skp x s).trans (withKey_outside habsent)
  · exact (exec_sknp x s).trans (withKey_outside habsent)

/-- Settles O33: each key test is `skipIf` with the flag of the named key, or with its negation. -/
theorem keySkipsTestTheNamedKey : Obligations.KeySkipsTestTheNamedKey := by
  intro x s k hk
  constructor
  · rw [exec_skp, withKey_inside k hk, s.skipIf_of_iff Iff.rfl]
  · rw [exec_sknp, withKey_inside k hk, s.skipIf_of_iff (Iff.of_eq (Bool.not_eq_true' _))]

/-- Settles O34: in each clause the instruction tests a key that is absent. -/
theorem keySkipsFaultAboveFifteen : Obligations.KeySkipsFaultAboveFifteen := fun x _ habsent =>
  ⟨exec_of_testsAbsentKey ⟨x, .inl rfl, rfl, habsent⟩, exec_of_testsAbsentKey ⟨x, .inr rfl, rfl, habsent⟩⟩

end Sys2Proof.Machine
end

section
/-! ## Key events -/

namespace Sys2Proof.Machine

/-- The state with KEY[k] written: what a key event for k leaves, by `State.keyEvent_key` (R240). -/
def State.setKey (s : State) (k : Fin 16) (pressed : Bool) : State := { s with keys := s.keys.set k.val pressed }

/-- The written key reads as it was written. -/
theorem State.get_setKey_same (s : State) (k : Fin 16) (pressed : Bool) : (s.setKey k pressed).keys.get k = pressed :=
  Vector.getElem_set_self k.isLt

/-- Every other key is left unchanged. -/
theorem State.get_setKey_of_ne {s : State} {j k : Fin 16} {pressed : Bool} (h : j ≠ k) :
    (s.setKey k pressed).keys.get j = s.keys.get j :=
  Vector.getElem_set_ne k.isLt j.isLt fun e => h (Fin.ext e.symm)

/-- Of two writes to one key the last one wins (R322). -/
theorem State.setKey_setKey (s : State) (k : Fin 16) (first last : Bool) :
    (s.setKey k first).setKey k last = s.setKey k last := by
  simp only [State.setKey, Vector.set_set]

/-- A key event for a key number writes that key (R240), whatever STATUS is (log entry 13). -/
theorem State.keyEvent_key (s : State) (k : Fin 16) (pressed : Bool) :
    s.keyEvent k.val pressed = .next (s.setKey k pressed) := dif_pos k.isLt

/-- A key event above 15 is refused (R322, D18). -/
theorem State.keyEvent_absent {s : State} {k : Nat} {pressed : Bool} (h : 15 < k) :
    s.keyEvent k pressed = .refused (.keyNumberOutOfRange k) := dif_neg (by omega)

/-- A `key_down` event for a key number, as an event of the session (R240). -/
theorem hostStep_keyDown (s : State) (loaded : Bool) (k : Fin 16) :
    hostStep (.keyDown k.val) ⟨s, loaded⟩ = .next ⟨s.setKey k true, loaded⟩ :=
  congrArg (Session.answer loaded) (s.keyEvent_key k true)

/-- A `key_up` event for a key number, as an event of the session (R240). -/
theorem hostStep_keyUp (s : State) (loaded : Bool) (k : Fin 16) :
    hostStep (.keyUp k.val) ⟨s, loaded⟩ = .next ⟨s.setKey k false, loaded⟩ :=
  congrArg (Session.answer loaded) (s.keyEvent_key k false)

/-- After an event for a key, each further event for it leaves what it leaves without the first (R322). -/
theorem hostStep_key_after_setKey (s : State) (loaded first : Bool) (k : Fin 16) :
    hostStep (.keyDown k.val) ⟨s.setKey k first, loaded⟩ = .next ⟨s.setKey k true, loaded⟩ ∧
    hostStep (.keyUp k.val) ⟨s.setKey k first, loaded⟩ = .next ⟨s.setKey k false, loaded⟩ := by
  rw [hostStep_keyDown, hostStep_keyUp, State.setKey_setKey, State.setKey_setKey]
  exact ⟨rfl, rfl⟩

/-- Settles O57: an event for a key number leaves the state with that key written, of which the last write wins, and one
above 15 has no key to write. -/
theorem keyEventsWriteOneKey : Obligations.KeyEventsWriteOneKey := by
  refine fun s loaded => ⟨fun k => ⟨s.setKey k true, s.setKey k false, hostStep_keyDown s loaded k,
    hostStep_keyUp s loaded k, rfl, rfl, s.get_setKey_same k true, s.get_setKey_same k false,
    fun j hj => ⟨State.get_setKey_of_ne hj, State.get_setKey_of_ne hj⟩, fun e he => ?lastWins⟩, fun k hk => ?absent⟩
  case lastWins =>
    obtain rfl | rfl : e = s.setKey k true ∨ e = s.setKey k false := by simpa using he
    · exact hostStep_key_after_setKey s loaded true k
    · exact hostStep_key_after_setKey s loaded false k
  case absent =>
    exact ⟨congrArg (Session.answer loaded) (State.keyEvent_absent hk),
      congrArg (Session.answer loaded) (State.keyEvent_absent hk)⟩

end Sys2Proof.Machine
end

/-! # Timer and miscellaneous family: index, timer, decimal digits and block moves (48_fx_misc.md) -/

section
/-! ## Index and timer -/

namespace Sys2Proof.Machine

/-- The execute step of `ADD I, Vx` (R252). -/
theorem exec_addIVx (x : Nibble) (s : State) :
    exec (.addIVx x) s = .next { s with i := s.i + wideByte (s.getV x) } := rfl

/-- The execute step of `LD F, Vx` (R253). -/
theorem exec_ldFVx (x : Nibble) (s : State) : exec (.ldFVx x) s = .next { s with i := glyphAddr (s.getV x) } := rfl

/-- A word and a byte add modulo 65536 (R252). -/
theorem add_wideByte_eq_ofNat (w : Word) (b : Byte) :
    w + wideByte b = BitVec.ofNat 16 ((w.toNat + b.toNat) % 65536) := by
  apply BitVec.eq_of_toNat_eq
  rw [BitVec.toNat_add, toNat_wideByte, BitVec.toNat_ofNat, Nat.mod_mod]

/-- The glyph address as a number (R253). -/
theorem glyphAddr_eq_ofNat (b : Byte) : glyphAddr b = BitVec.ofNat 16 (0x050 + 5 * b.toNat) := rfl

/-- Settles O42: each step writes I alone, the sum modulo 65536 or the glyph address. -/
theorem indexArithmetic : Obligations.IndexArithmetic := fun x s =>
  ⟨by rw [exec_addIVx, add_wideByte_eq_ofNat], by rw [exec_ldFVx, glyphAddr_eq_ofNat]⟩

/-- Settles O44: one step writes one register from DT, the other DT from one register. -/
theorem timerIsReadAndWritten : Obligations.TimerIsReadAndWritten := fun x s =>
  ⟨⟨_, exec_ldVxDt x s, rfl, s.getV_setV_same x s.dt, fun _ => State.getV_setV_of_ne⟩, exec_ldDtVx x s⟩

end Sys2Proof.Machine
end

section
/-! ## Stores and loads from I -/

namespace Sys2Proof.Machine

/-- Byte j of a block that was stored inside memory stands at base + j (R53). -/
theorem Memory.read_writeBlock_stored {m : Memory} {base : Nat} {bs : List Byte} (h : m.wf = true)
    (hb : base + bs.length ≤ Config.memSize) {j : Nat} (hj : j < bs.length) :
    (m.writeBlock base bs).read (base + j) = bs[j] := by
  rw [Memory.read_writeBlock h (.inr hb), dif_pos ⟨by omega, by omega⟩]
  simp only [Nat.add_sub_cancel_left]

/-- Outside a block that was stored inside memory every byte is as before (R57). -/
theorem Memory.read_writeBlock_outside {m : Memory} {base : Nat} {bs : List Byte} (h : m.wf = true)
    (hb : base + bs.length ≤ Config.memSize) {a : Nat} (ha : a < base ∨ base + bs.length ≤ a) :
    (m.writeBlock base bs).read a = m.read a := by
  rw [Memory.read_writeBlock h (.inr hb), dif_neg (by omega)]

/-- The values of the three digits of a byte, by their places (R254). -/
theorem toNat_getElem_decimalDigits (b : Byte) {j : Nat} (hj : j < 3) :
    (decimalDigits b)[j].toNat = [b.toNat / 100, b.toNat / 10 % 10, b.toNat % 10][j] := by
  simp only [← decimalDigits_toNat]
  exact (List.getElem_map ..).symm

/-- Settles O48: the step stores a block of three digits from I, and each reads back at its place. -/
theorem bcdStoresThreeDigits : Obligations.BcdStoresThreeDigits := by
  intro x s hm hin
  have hb : s.i.toNat + (decimalDigits (s.getV x)).length ≤ Config.memSize := by
    simp only [length_decimalDigits, Config.memSize]; omega
  have hdigit (j : Nat) (hj : j < 3) :
      ((s.mem.writeBlock s.i.toNat (decimalDigits (s.getV x))).read (s.i.toNat + j)).toNat =
        [(s.getV x).toNat / 100, (s.getV x).toNat / 10 % 10, (s.getV x).toNat % 10][j] := by
    rw [Memory.read_writeBlock_stored hm hb hj, toNat_getElem_decimalDigits _ hj]
  refine ⟨_, exec_ldBVx_inside hin, rfl, hdigit 0 (by decide), hdigit 1 (by decide), hdigit 2 (by decide),
    fun a ha => Memory.read_writeBlock_outside hm hb ?_⟩
  rw [length_decimalDigits]; omega

/-- Settles O49: the step stores the block V0..Vx from I, whose byte r is Vr. -/
theorem blockStoreWritesRegistersZeroToX : Obligations.BlockStoreWritesRegistersZeroToX := by
  intro x s hm hin
  have hlen : (s.regsUpTo x).length = x.toNat + 1 := s.length_regsUpTo x
  have hb : s.i.toNat + (s.regsUpTo x).length ≤ Config.memSize := by simp only [hlen, Config.memSize]; omega
  refine ⟨_, exec_ldMemVx_inside hin, rfl, fun r hr => ?_,
    fun a ha => Memory.read_writeBlock_outside hm hb (by omega)⟩
  have hrlen : r.toNat < (s.regsUpTo x).length := by omega
  exact (Memory.read_writeBlock_stored hm hb hrlen).trans (s.getElem_regsUpTo x r hrlen)

/-- `LD Vx,[I]` with I + x in memory (R256). -/
theorem exec_ldVxMem_inside {x : Nibble} {s : State} (h : s.i.toNat + x.toNat ≤ 0xFFF) :
    exec (.ldVxMem x) s = .next (s.loadRegsUpTo x) :=
  withRange_inside (.inr (by simp only [Config.memSize]; omega))

/-- Settles O50: the step loads V0..Vx, and a register read afterwards is a loaded byte or the old register. -/
theorem blockLoadReadsRegistersZeroToX : Obligations.BlockLoadReadsRegistersZeroToX := by
  refine fun x s hin => ⟨_, exec_ldVxMem_inside hin, rfl, fun r hr => ?_, fun r hr => ?_⟩
  · rw [State.getV_loadRegsUpTo, if_pos hr, State.baseAddr_eq]
  · rw [State.getV_loadRegsUpTo, if_neg (by omega)]

end Sys2Proof.Machine
end

/-! # Host port family: the load, the order of host events and the invariant (60_exceptions.md,
70_reset_and_hazards.md) -/

section
/-! ## The one load -/

namespace Sys2Proof.Machine

/-- An image of at most 3584 bytes is stored from 0x200 on (R343). -/
theorem State.load_fitting (s : State) {bytes : List Byte} (h : bytes.length ≤ 3584) :
    s.load bytes = { s with mem := s.mem.writeBlock 0x200 bytes } := if_pos h

/-- A longer image faults (R343). -/
theorem State.load_tooLong (s : State) {bytes : List Byte} (h : 3584 < bytes.length) :
    s.load bytes = s.enterFault (.romTooLarge bytes.length) := if_neg (Nat.not_le.mpr h)

/-- The first load, as an event of the session (R344). -/
theorem hostStep_load (s : State) (bytes : List Byte) :
    hostStep (.load bytes) ⟨s, false⟩ = .next ⟨s.load bytes, true⟩ := rfl

/-- A cycle after the load, as an event of the session, is one step (R320, R344). -/
theorem hostStep_cycle {s t : State} (h : step s = .next t) : hostStep .cycle ⟨s, true⟩ = .next ⟨t, true⟩ :=
  congrArg (Session.answer true) h

/-- Settles O55: a fitting image is a block store from 0x200, whose last byte is 0xFFF at most, and a longer one enters
the fault. -/
theorem loadPlacesTheImageOrFaults : Obligations.LoadPlacesTheImageOrFaults := by
  intro bytes s hm
  refine ⟨fun hfit => ?fits, fun hlong => ?tooLong⟩
  case fits =>
    have hb : 0x200 + bytes.length ≤ Config.memSize := by simp only [Config.memSize]; omega
    rw [hostStep_load, State.load_fitting s hfit]
    exact ⟨_, rfl, rfl, fun j => Memory.read_writeBlock_stored hm hb, fun a => Memory.read_writeBlock_outside hm hb⟩
  case tooLong =>
    rw [hostStep_load, State.load_tooLong s hlong]
    rfl

/-- Settles O56: the session refuses by whether the load has been made, and passes a cycle after it on to the engine. -/
theorem hostLoadsOnceBeforeTheFirstCycle : Obligations.HostLoadsOnceBeforeTheFirstCycle :=
  fun _ _ _ => ⟨rfl, rfl, hostStep_cycle⟩

end Sys2Proof.Machine
end

section
/-! ## Every host event keeps the invariant -/

namespace Sys2Proof.Machine

/-- A key event that answers next has written a key. -/
theorem State.keyEvent_cases {s t : State} {k : Nat} {pressed : Bool} (h : s.keyEvent k pressed = .next t) :
    ∃ j : Fin 16, t = s.setKey j pressed := by
  by_cases hk : k < 16
  · rw [s.keyEvent_key ⟨k, hk⟩ pressed] at h
    exact ⟨⟨k, hk⟩, (Host.Outcome.next.inj h).symm⟩
  · rw [State.keyEvent_absent (by omega)] at h
    cases h

/-- Everything a host event can answer next (R320): the engine after its one load, after a step, or with a key
written. -/
theorem hostStep_cases {e : HostEvent} {p q : Session} (h : hostStep e p = .next q) :
    (p.loaded = false ∧ ∃ bytes, q = ⟨p.engine.load bytes, true⟩) ∨
    (∃ t, step p.engine = .next t ∧ q = ⟨t, true⟩) ∨
    (∃ k pressed, q = ⟨p.engine.setKey k pressed, p.loaded⟩) := by
  cases e with
  | load bytes =>
    cases hl : p.loaded <;> simp only [hostStep, hl] at h
    · exact .inl ⟨rfl, bytes, (Host.Outcome.next.inj h).symm⟩
    · cases h
  | cycle =>
    cases hl : p.loaded <;> simp only [hostStep, hl] at h
    · cases h
    · exact .inr (.inl (Session.answer_eq_next_iff.mp h))
  | keyDown k =>
    obtain ⟨t, ht, rfl⟩ := Session.answer_eq_next_iff.mp h
    obtain ⟨j, rfl⟩ := State.keyEvent_cases ht
    exact .inr (.inr ⟨j, true, rfl⟩)
  | keyUp k =>
    obtain ⟨t, ht, rfl⟩ := Session.answer_eq_next_iff.mp h
    obtain ⟨j, rfl⟩ := State.keyEvent_cases ht
    exact .inr (.inr ⟨j, false, rfl⟩)

/-- The load into a Running engine keeps the invariant (R343). -/
theorem State.Inv.load {s : State} (hs : s.Inv) (hrun : s.status = .running) (bytes : List Byte) :
    (s.load bytes).Inv := by
  by_cases hfit : bytes.length ≤ 3584
  · rw [State.load_fitting s hfit]
    exact {
      mem_wf := Memory.writeBlock_wf hs.mem_wf (.inr (by simp only [Config.memSize]; omega))
      sp_le := hs.sp_le
      pc_le := hs.pc_le
      stack_le := hs.stack_le
      status_holds := by simp only [State.statusHolds, hrun] }
  · rw [State.load_tooLong s (Nat.lt_of_not_le hfit)]
    exact hs.enterFault (f := .romTooLarge bytes.length) (Nat.lt_of_not_le hfit)

/-- STATUS holds when the fault that it reports, if any, does. -/
theorem State.statusHolds_iff {s : State} : s.statusHolds ↔ ∀ f, s.status = .faulted f → s.reportHolds f := by
  unfold State.statusHolds
  cases s.status <;> simp

/-- No fault report is about a key flag. -/
theorem State.reportHolds_setKey {s : State} {f : FatalFault} (k : Fin 16) (pressed : Bool) (h : s.reportHolds f) :
    (s.setKey k pressed).reportHolds f := by
  cases f <;> exact h

/-- A key event keeps the invariant (R322). -/
theorem State.Inv.setKey {s : State} (hs : s.Inv) (k : Fin 16) (pressed : Bool) : (s.setKey k pressed).Inv where
  mem_wf := hs.mem_wf
  sp_le := hs.sp_le
  pc_le := hs.pc_le
  stack_le := hs.stack_le
  status_holds := State.statusHolds_iff.mpr fun f hf =>
    State.reportHolds_setKey k pressed (State.statusHolds_iff.mp hs.status_holds f hf)

/-- Settles O13: the load, the step and the key event each keep the invariant, and only the key event leaves the session
before its load, with STATUS as it was. -/
theorem everyHostEventKeepsTheInvariant : Obligations.EveryHostEventKeepsTheInvariant := by
  intro e p q hinv hbefore h
  rcases hostStep_cases h with ⟨hl, bytes, rfl⟩ | ⟨t, ht, rfl⟩ | ⟨k, pressed, rfl⟩
  · exact ⟨hinv.load (hbefore hl) bytes, nofun⟩
  · exact ⟨everyStepKeepsTheInvariant _ _ hinv ht, nofun⟩
  · exact ⟨hinv.setKey k pressed, hbefore⟩

end Sys2Proof.Machine
end

/-! # Key wait family (49_key_wait.md) -/

section
/-! ## One execute step of the key wait -/

namespace Sys2Proof.Machine

/-- `LD Vx, K` where the scan finds key k (R280). -/
theorem exec_ldVxK_pressed {x : Nibble} {s : State} {k : Nat} (h : s.firstPressed = some k) :
    exec (.ldVxK x) s = .next (s.setV x (BitVec.ofNat 8 k)) := by
  simp only [exec, execLdVxK, h]

/-- `LD Vx, K` where the scan finds no key (R280). -/
theorem exec_ldVxK_released {x : Nibble} {s : State} (h : s.firstPressed = none) :
    exec (.ldVxK x) s = .next { s with pc := s.pc - 2 } := by
  simp only [exec, execLdVxK, h]

/-- Settles O52: the scan finds the lowest pressed key of 0..14, whose number fits a byte, or none. -/
theorem keyWaitTakesTheLowestKeyOrRewinds : Obligations.KeyWaitTakesTheLowestKeyOrRewinds := by
  refine fun x s => ⟨fun k hk hpressed hlower => ?_,
    fun hreleased => exec_ldVxK_released (State.firstPressed_eq_none_iff.mpr hreleased)⟩
  have hfirst : s.firstPressed = some k.val :=
    State.firstPressed_eq_some_iff.mpr ⟨hk, hpressed, fun j hj => hlower ⟨j, by omega⟩ hj⟩
  refine ⟨_, exec_ldVxK_pressed hfirst, rfl, ?_, fun _ => State.getV_setV_of_ne⟩
  rw [State.getV_setV_same, BitVec.toNat_ofNat]
  omega

end Sys2Proof.Machine
end

section
/-! ## The key wait goes on -/

namespace Sys2Proof.Machine

/-- A Running engine at `LD Vx, K` with none of the keys 0..14 pressed (R282). -/
structure State.WaitsForKey (s : State) (x : Nibble) : Prop where
  running : s.status = .running
  fetched : s.fetch = some (encode (.ldVxK x))
  released : ∀ k : Fin 16, k.val < 15 → s.keys.get k = false

/-- The state with DT counted down `n` times, not below zero, and KEY replaced: what a wait of `n` cycles leaves, by
`run_of_waitsForKey`. -/
def State.afterWait (s : State) (n : Nat) (keys : Vector Bool 16) : State :=
  { s with keys := keys, dt := BitVec.ofNat 8 (s.dt.toNat - n) }

/-- A wait of no cycles with KEY replaced. -/
theorem State.afterWait_zero (s : State) (keys : Vector Bool 16) : s.afterWait 0 keys = { s with keys := keys } := by
  rw [State.afterWait, Nat.sub_zero, BitVec.ofNat_toNat, BitVec.setWidth_eq]

/-- The cycles of two waits in a row add up, and the KEY of the second one stands. -/
theorem State.afterWait_afterWait (s : State) (m n : Nat) (keys keys' : Vector Bool 16) :
    (s.afterWait m keys).afterWait n keys' = s.afterWait (m + n) keys' := by
  have hdt : (BitVec.ofNat 8 (s.dt.toNat - m)).toNat = s.dt.toNat - m :=
    (BitVec.toNat_ofNat ..).trans (Nat.mod_eq_of_lt (by omega))
  simp only [State.afterWait, hdt, Nat.sub_sub]

/-- One tick is a wait of one cycle (R104). -/
theorem State.tick_eq_afterWait (s : State) : s.tick = s.afterWait 1 s.keys := by
  have hdt : countDown s.dt = BitVec.ofNat 8 (s.dt.toNat - 1) := by
    rw [← toNat_countDown, BitVec.ofNat_toNat, BitVec.setWidth_eq]
  rw [State.tick, hdt, State.afterWait]

/-- The wait goes on as long as none of the keys 0..14 is pressed. -/
theorem State.WaitsForKey.afterWait {s : State} {x : Nibble} (h : s.WaitsForKey x) (n : Nat) {keys : Vector Bool 16}
    (hkeys : ∀ k : Fin 16, k.val < 15 → keys.get k = false) : (s.afterWait n keys).WaitsForKey x :=
  ⟨h.running, h.fetched, hkeys⟩

/-- A cycle of a waiting engine takes PC back to the instruction and ticks (R280, R104). -/
theorem step_of_waitsForKey {s : State} {x : Nibble} (h : s.WaitsForKey x) : step s = .next (s.afterWait 1 s.keys) := by
  have hscan : s.advance.firstPressed = none := State.firstPressed_eq_none_iff.mpr h.released
  have hback : { s.advance with pc := s.advance.pc - 2 } = s :=
    congrArg (fun a => { s with pc := a }) s.instrAddr_advance
  rw [step_of_fetch h.running h.fetched, decode_encode rfl, exec_ldVxK_released hscan, hback,
    completeCycle_of_running h.running, State.tick_eq_afterWait]

/-- Any number of cycles of a waiting engine is a wait (R282). -/
theorem run_of_waitsForKey {s : State} {x : Nibble} (h : s.WaitsForKey x) (n : Nat) :
    Host.Core.run core n s = .next (s.afterWait n s.keys) := by
  induction n generalizing s with
  | zero => rw [State.afterWait_zero]; rfl
  | succ n ih =>
    calc Host.Core.run core (n + 1) s
      _ = Host.Core.run core n (s.afterWait 1 s.keys) := run_succ_of_step core (step_of_waitsForKey h) n
      _ = .next ((s.afterWait 1 s.keys).afterWait n s.keys) := ih (h.afterWait 1 h.released)
      _ = .next (s.afterWait (n + 1) s.keys) := by rw [State.afterWait_afterWait, Nat.add_comm]

/-- Settles O9: each cycle leaves a waiting engine, one tick later. -/
theorem keyWaitNeverEndsWithoutAKey : Obligations.KeyWaitNeverEndsWithoutAKey :=
  fun _ _ hrun hfetch hreleased => run_of_waitsForKey ⟨hrun, hfetch, hreleased⟩

/-- A write to KEY that presses none of the keys 0..14 leaves them all released. -/
theorem State.WaitsForKey.released_setKey {s : State} {x : Nibble} (h : s.WaitsForKey x) {j : Fin 16} {pressed : Bool}
    (hj : j.val < 15 → pressed = false) (k : Fin 16) (hk : k.val < 15) : (s.setKey j pressed).keys.get k = false := by
  by_cases hkj : k = j
  · subst hkj; rw [State.get_setKey_same, hj hk]
  · rw [State.get_setKey_of_ne hkj, h.released k hk]

/-- A write to KEY is a wait of no cycles. -/
theorem State.setKey_eq_afterWait (s : State) (k : Fin 16) (pressed : Bool) :
    s.setKey k pressed = s.afterWait 0 (s.setKey k pressed).keys := (s.afterWait_zero _).symm

/-- A host event that presses none of the keys 0..14 is a wait of one cycle if it is a cycle, and else of none
(R282). -/
theorem hostStep_of_waitsForKey {s : State} {x : Nibble} {e : HostEvent} (h : s.WaitsForKey x)
    (he : e.pressesOnlyFifteen) :
    ∃ keys, hostStep e ⟨s, true⟩ = .next ⟨s.afterWait ([e].count .cycle) keys, true⟩ ∧
      ∀ k : Fin 16, k.val < 15 → keys.get k = false := by
  cases e with
  | load bytes => exact he.elim
  | cycle => exact ⟨s.keys, hostStep_cycle (step_of_waitsForKey h), h.released⟩
  | keyDown k =>
    obtain rfl : k = 15 := he
    have hstep := hostStep_keyDown s true 15
    rw [s.setKey_eq_afterWait] at hstep
    exact ⟨_, hstep, h.released_setKey (by decide)⟩
  | keyUp k =>
    have hk : k < 16 := Nat.lt_succ_of_le he
    have hstep := hostStep_keyUp s true ⟨k, hk⟩
    rw [s.setKey_eq_afterWait] at hstep
    exact ⟨_, hstep, h.released_setKey fun _ => rfl⟩

/-- Any host events that press none of the keys 0..14 are a wait of as many cycles as are among them (R282). -/
theorem hostRun_of_waitsForKey {s : State} {x : Nibble} {es : List HostEvent} (h : s.WaitsForKey x)
    (hes : ∀ e ∈ es, e.pressesOnlyFifteen) :
    ∃ keys, hostRun es ⟨s, true⟩ = .next ⟨s.afterWait (es.count .cycle) keys, true⟩ ∧
      ∀ k : Fin 16, k.val < 15 → keys.get k = false := by
  induction es generalizing s with
  | nil => exact ⟨s.keys, by rw [List.count_nil, State.afterWait_zero]; rfl, h.released⟩
  | cons e es ih =>
    obtain ⟨he, hes⟩ := List.forall_mem_cons.mp hes
    obtain ⟨keys, hstep, hkeys⟩ := hostStep_of_waitsForKey h he
    obtain ⟨keys', hstop, hkeys'⟩ := ih (h.afterWait _ hkeys) hes
    refine ⟨keys', ?_, hkeys'⟩
    rw [hostRun_cons hstep, hstop, State.afterWait_afterWait, ← List.count_append, List.singleton_append]

/-- Settles O58: each host event leaves a waiting engine, one tick later if it is a cycle. -/
theorem keyWaitNeverEndsWhateverKeyFifteenDoes : Obligations.KeyWaitNeverEndsWhateverKeyFifteenDoes := by
  intro es s x hrun hfetch hreleased hes
  obtain ⟨keys, hstop, hkeys⟩ := hostRun_of_waitsForKey ⟨hrun, hfetch, hreleased⟩ hes
  exact ⟨_, hstop, rfl, hkeys⟩

end Sys2Proof.Machine
end
